-- ==== Sys2Proof/Word.lean ====
section
/-! DEFINITION. The word types of the block: register words, channel bytes, coordinate fields (R6, R11, R12). -/

namespace Sys2Proof

/-- A register of the window, a bus datum, a command word: 32 bits (R20, R35, R45). -/
abbrev Word := BitVec 32

/-- One stored channel value, 0 to 255 (R12). -/
abbrev Byte := BitVec 8

/-- A coordinate or bound as its 16-bit field; its value is the two's-complement reading `toInt`, the spec's `s16` (R6, R11). -/
abbrev Coord := BitVec 16

/-- A slot number 0 to 15; every 4-bit field value names a slot (R10, R46). -/
abbrev SlotNum := Fin 16

end Sys2Proof
end

