-- ==== Sys2Proof/Config.lean ====
section
/-! DEFINITION. The parameters of the hardware that R4 fixes, and the open bus address BASE. -/

namespace Sys2Proof.Config

/-- `SCALE_MAX`, the largest channel value of the one scale in force (R4, R5). -/
def scaleMax : Nat := 255

/-- `LUMA_R` as a number of ten-thousandths (R4). -/
def lumaR : Nat := 2126

/-- `LUMA_G` as a number of ten-thousandths (R4). -/
def lumaG : Nat := 7152

/-- `LUMA_B` as a number of ten-thousandths (R4). -/
def lumaB : Nat := 722

/-- The common denominator of the three luminance weights (R4). -/
def lumaDen : Nat := 10000

/-- `BLUR_TAPS`, the largest forward offset of the motion blur (R4). -/
def blurTaps : Nat := 99

/-- The weight at offset `j` is `1/(5j)`: this is the 5 (`BLUR_W`, R4). -/
def blurDen : Nat := 5

/-- One in the UQ16.16 format of `AMOUNT` (R4, R15). -/
def amountOne : Nat := 65536

/-- The default of the open parameter `CAP_PIXELS` (R4); the instance's own value is `State.capPixels` (log entry 1). -/
def defaultCapPixels : Nat := 65536

/-- A quarter of the open parameter `BASE`: R34 leaves `BASE` to the platform and asks only for a multiple of 4. A free value (log entry 2). -/
opaque baseWords : Nat

/-- `BASE`, the bus address at which the register window starts (R34). No rule depends on its value. -/
def base : Nat := 4 * baseWords

/-- The bus address of the window location at byte offset `off` (R34). -/
def busAddress (off : Nat) : Nat := base + off

end Sys2Proof.Config
end

