-- ==== Sys2Proof/Syntax.lean ====
section
/-! DEFINITION. The ten commands of spec/opcode_table.json, the nine locations of the register window, and the host's actions. -/

namespace Sys2Proof

/-- The commands (R50): one constructor per row of the opcode table. `rd` is the slot a command creates, writes or frees,
`rs` the slot it reads (R46); every other operand comes from an operand register (R48). -/
inductive Instr where
  | alloc (rd : SlotNum)
  | free (rd : SlotNum)
  | getb (rs : SlotNum)
  | getpx (rs : SlotNum)
  | putpx (rd : SlotNum)
  | copy (rd rs : SlotNum)
  | contrast (rd rs : SlotNum)
  | gray (rd rs : SlotNum)
  | invert (rd rs : SlotNum)
  | mblur (rd rs : SlotNum)
  deriving DecidableEq, Repr

/-- The mnemonic of R50, as the opcode table spells it. -/
def Instr.mnemonic : Instr → String
  | .alloc _ => "ALLOC"
  | .free _ => "FREE"
  | .getb _ => "GETB"
  | .getpx _ => "GETPX"
  | .putpx _ => "PUTPX"
  | .copy _ _ => "COPY"
  | .contrast _ _ => "CONTRAST"
  | .gray _ _ => "GRAY"
  | .invert _ _ => "INVERT"
  | .mblur _ _ => "MBLUR"

/-- The locations of the register window (R34). -/
inductive Reg where
  | cmd | status | finfo | amount | bmin | bmax | pxpos | pxdata | valid
  deriving DecidableEq, Repr

/-- The byte offset of a location in the window (R34). -/
def Reg.offset : Reg → Nat
  | .cmd => 0x00
  | .status => 0x04
  | .finfo => 0x08
  | .amount => 0x0C
  | .bmin => 0x10
  | .bmax => 0x14
  | .pxpos => 0x18
  | .pxdata => 0x1C
  | .valid => 0x20

/-- What the outside world can do to the block: one of these per step. A bus access carries its width in bits and its byte
offset in the window; only 32-bit accesses at the nine offsets have a meaning (R35, R39), the others are written down here so
that the machine can refuse them by name (log entry 5). -/
inductive HostAction where
  /-- `RegRead(off)` when `bits` is 32 (R36). -/
  | read (bits off : Nat)
  /-- `RegWrite(off, v)` when `bits` is 32 (R37). -/
  | write (bits off : Nat) (v : Word)
  /-- The input `rst` is asserted (R130). -/
  | reset
  deriving DecidableEq, Repr

/-- The host action of R36 at a location of the window. -/
def HostAction.rd (r : Reg) : HostAction := .read 32 r.offset

/-- The host action of R37 at a location of the window. -/
def HostAction.wr (r : Reg) (v : Word) : HostAction := .write 32 r.offset v

end Sys2Proof
end

