-- ==== Sys2Proof/WellFormed.lean ====
section
/-! DEFINITION. What a command word and a bus access must be: the opcode table's match and mask rows (R47, R50), and the checks of
R35 and R39 on a bus access. A slot operand of `Instr` is in 0 to 15 by its type, so an `Instr` needs no check of its own. -/

namespace Sys2Proof

/-- The three formats of a command word (R47). -/
inductive Format where
  | d | s | ds
  deriving DecidableEq, Repr

/-- The fixed bits of a format (R47). -/
def Format.mask : Format → Word
  | .d => 0xFFFFF0FF
  | .s => 0xFFFF0FFF
  | .ds => 0xFFFF00FF

/-- One row of the opcode map (R50). -/
structure Row where
  mnemonic : String
  format : Format
  pattern : Word
  deriving DecidableEq, Repr

/-- The opcode map (R50). -/
def opcodeRows : List Row :=
  [⟨"ALLOC", .d, 0x00000001⟩, ⟨"FREE", .d, 0x00000002⟩, ⟨"GETB", .s, 0x00000003⟩,
   ⟨"GETPX", .s, 0x00000004⟩, ⟨"PUTPX", .d, 0x00000005⟩, ⟨"COPY", .ds, 0x00000010⟩,
   ⟨"CONTRAST", .ds, 0x00000011⟩, ⟨"GRAY", .ds, 0x00000012⟩, ⟨"INVERT", .ds, 0x00000013⟩,
   ⟨"MBLUR", .ds, 0x00000014⟩]

/-- "A word `v` is the command of a row exactly when `v AND mask = match`" (R47). -/
def Row.fits (row : Row) (v : Word) : Bool := v &&& row.format.mask == row.pattern

/-- A command word is well formed when some row of the opcode map fits it (R47, R51). -/
def commandWellFormed (v : Word) : Bool := opcodeRows.any (·.fits v)

/-- A 32-bit access at a multiple of 4 below 0x24: the only accesses that exist at the interface (R35, R39). -/
def accessWellFormed (bits off : Nat) : Bool := bits == 32 && off % 4 == 0 && decide (off < 0x24)

/-- A host action the model gives a meaning to (R35, R36, R37, R39, R130). -/
def HostAction.wellFormed : HostAction → Bool
  | .read bits off => accessWellFormed bits off
  | .write bits off _ => accessWellFormed bits off
  | .reset => true

end Sys2Proof
end

