-- ==== Sys2Proof/Decode.lean ====
section
/-! DEFINITION. The decoder of R49 (total on every 32-bit word, rejecting by name) and, after it, the encoder of R45 and R50; then
the window's address decode (R34, R35, R39). -/

namespace Sys2Proof

/-- Why a word is no command; each of these raises `ILLEGAL` (R51). -/
inductive Reject where
  /-- `v[31:16]` is not zero. -/
  | zeroField
  /-- `OPC` is 0x00, 0x06 to 0x0F, or 0x15 to 0xFF. -/
  | opcode
  /-- A format-D word with `RS` not zero. -/
  | rsField
  /-- A format-S word with `RD` not zero. -/
  | rdField
  deriving DecidableEq, Repr

/-- What the decoder answers. -/
inductive Decoded where
  | instr (i : Instr)
  | illegal (why : Reject)
  deriving DecidableEq, Repr

/-- `OPC = v[7:0]` (R45). -/
def opcField (v : Word) : BitVec 8 := v.extractLsb' 0 8

/-- `RD = v[11:8]` (R45, R46). -/
def rdField (v : Word) : SlotNum := (v.extractLsb' 8 4).toFin

/-- `RS = v[15:12]` (R45, R46). -/
def rsField (v : Word) : SlotNum := (v.extractLsb' 12 4).toFin

/-- `ZERO = v[31:16]` (R45). -/
def zeroField (v : Word) : BitVec 16 := v.extractLsb' 16 16

/-- A format-D word: `RS` must be zero (R47). -/
def formatD (v : Word) (make : SlotNum → Instr) : Decoded :=
  if rsField v ≠ 0 then .illegal .rsField else .instr (make (rdField v))

/-- A format-S word: `RD` must be zero (R47). -/
def formatS (v : Word) (make : SlotNum → Instr) : Decoded :=
  if rdField v ≠ 0 then .illegal .rdField else .instr (make (rsField v))

/-- A format-DS word: both slot fields are used (R47). -/
def formatDS (v : Word) (make : SlotNum → SlotNum → Instr) : Decoded :=
  .instr (make (rdField v) (rsField v))

/-- The decoding half of `Execute(v)` (R49), in its order of tests. -/
def decode (v : Word) : Decoded :=
  if zeroField v ≠ 0 then .illegal .zeroField
  else
    match (opcField v).toNat with
    | 0x01 => formatD v .alloc
    | 0x02 => formatD v .free
    | 0x03 => formatS v .getb
    | 0x04 => formatS v .getpx
    | 0x05 => formatD v .putpx
    | 0x10 => formatDS v .copy
    | 0x11 => formatDS v .contrast
    | 0x12 => formatDS v .gray
    | 0x13 => formatDS v .invert
    | 0x14 => formatDS v .mblur
    | _ => .illegal .opcode

/-- The opcode of a command (R50). -/
def opcodeOf : Instr → BitVec 8
  | .alloc _ => 0x01
  | .free _ => 0x02
  | .getb _ => 0x03
  | .getpx _ => 0x04
  | .putpx _ => 0x05
  | .copy _ _ => 0x10
  | .contrast _ _ => 0x11
  | .gray _ _ => 0x12
  | .invert _ _ => 0x13
  | .mblur _ _ => 0x14

/-- The four fields of R45 put together, `ZERO` being zero. -/
def commandWord (opc : BitVec 8) (rd rs : SlotNum) : Word :=
  0#16 ++ BitVec.ofFin (w := 4) rs ++ BitVec.ofFin (w := 4) rd ++ opc

/-- The one word that encodes a command (R45, R47, R50); a field its format does not use is zero. -/
def encode (i : Instr) : Word :=
  match i with
  | .alloc rd => commandWord (opcodeOf i) rd 0
  | .free rd => commandWord (opcodeOf i) rd 0
  | .getb rs => commandWord (opcodeOf i) 0 rs
  | .getpx rs => commandWord (opcodeOf i) 0 rs
  | .putpx rd => commandWord (opcodeOf i) rd 0
  | .copy rd rs => commandWord (opcodeOf i) rd rs
  | .contrast rd rs => commandWord (opcodeOf i) rd rs
  | .gray rd rs => commandWord (opcodeOf i) rd rs
  | .invert rd rs => commandWord (opcodeOf i) rd rs
  | .mblur rd rs => commandWord (opcodeOf i) rd rs

/-- The 32-bit command word given by the low `nbits` bits of `w`; none when they exceed 32 bits, since every command is exactly
one 32-bit word (R45, R52). -/
def tableWord? (nbits w : Nat) : Option Word :=
  let bits := w % 2 ^ nbits
  if bits < 2 ^ 32 then some (BitVec.ofNat 32 bits) else none

/-- What the decoder reads from a word numbered as the opcode table numbers it: bit 0 is the least significant bit (R6). -/
def decodeTableWord (nbits w : Nat) : Option Instr :=
  match tableWord? nbits w with
  | none => none
  | some v =>
    match decode v with
    | .instr i => some i
    | .illegal _ => none

/-- Why a bus access is no host action of the model (R35, R39). -/
inductive AccessDefect where
  /-- Narrower or wider than 32 bits (R35). -/
  | width
  /-- An offset that is not a multiple of 4 (R35). -/
  | misaligned
  /-- An offset at 0x24 or above (R39). -/
  | reserved
  deriving DecidableEq, Repr

/-- The defect of a bus access, if it has one (R35, R39). -/
def accessDefect (bits off : Nat) : Option AccessDefect :=
  if bits ≠ 32 then some .width
  else if off % 4 ≠ 0 then some .misaligned
  else if 0x24 ≤ off then some .reserved
  else none

/-- The location at a byte offset, if the window has one there (R34). -/
def Reg.ofOffset? : Nat → Option Reg
  | 0x00 => some .cmd
  | 0x04 => some .status
  | 0x08 => some .finfo
  | 0x0C => some .amount
  | 0x10 => some .bmin
  | 0x14 => some .bmax
  | 0x18 => some .pxpos
  | 0x1C => some .pxdata
  | 0x20 => some .valid
  | _ => none

end Sys2Proof
end

