-- ==== Sys2Proof/Machine/State.lean ====
section
/-! DEFINITION. The state of the block (R10 to R27) as plain data, the host side of a run, the reasons a step can stop, and reset. -/

namespace Sys2Proof.Machine

/-- One sample: the four channels at a coordinate, in the document's order (R12, R69). -/
structure Sample where
  r : Byte
  g : Byte
  b : Byte
  a : Byte
  deriving DecidableEq, Repr

/-- `(0, 0, 0, 0)`, what `NewBuffer` gives every sample (R7). -/
def Sample.zero : Sample := ⟨0, 0, 0, 0⟩

/-- The four bounds of a buffer, each a signed 16-bit integer (R11). -/
structure Bounds where
  minX : Coord
  minY : Coord
  maxX : Coord
  maxY : Coord
  deriving DecidableEq, Repr

/-- A PixelBuffer (R10 to R12): its bounds and its samples in raster order, `rows[y - minY][x - minX]` being the sample at
`(x, y)`. That the rows cover exactly the bounds is `Buffer.WF`, which every step keeps. -/
structure Buffer where
  bounds : Bounds
  rows : List (List Sample)
  deriving DecidableEq, Repr

/-- The fault causes of R110. -/
inductive Cause where
  | illegal | slotInvalid | slotOccupied | badBounds | capacity | oob | badAmount
  deriving DecidableEq, Repr

/-- The state. The first nine fields are the spec's own (the tuple at the head of 10_state.md); the last three are the model's:
the instance's parameter `CAP_PIXELS` (log entry 1), and the host's side of a run (log entry 3). -/
structure State where
  /-- `slot[0..15]`: `none` is `FREE`, `some b` is valid (R10). -/
  slots : Vector (Option Buffer) 16
  /-- `AMOUNT`, UQ16.16 (R15). -/
  amount : Word
  /-- `BMIN`: minX in 15:0, minY in 31:16 (R16). -/
  bmin : Word
  /-- `BMAX`: maxX in 15:0, maxY in 31:16 (R16). -/
  bmax : Word
  /-- `PXPOS`: x in 15:0, y in 31:16 (R17). -/
  pxpos : Word
  /-- `PXDATA`: R in 7:0, G in 15:8, B in 23:16, A in 31:24 (R18). -/
  pxdata : Word
  /-- `STATUS.FAULT` (R21). -/
  fault : Bool
  /-- `STATUS.CAUSE` (R21). -/
  cause : BitVec 4
  /-- `FINFO` (R22). -/
  finfo : Word
  /-- `CAP_PIXELS` of this instance: set once, kept by every command and by reset (R4, R26, R131). -/
  capPixels : Nat
  /-- The host's actions not yet taken, oldest first: the total order of R41. -/
  pending : List HostAction
  /-- The values `RegRead` returned to the host so far, newest first (R36). -/
  answers : List Word
  deriving DecidableEq, Repr

/-- Why the model stops with a fault. The block's own seven faults (R110) are NEXT states, not these. -/
inductive Fault where
  /-- Raised by GETPX and PUTPX where the slot's sample table has no entry for a coordinate inside the bounds. Safe: R12 gives
  every in-bounds coordinate a sample, and no state that meets `State.Inv` reaches this. -/
  | sampleMissing
  deriving DecidableEq, Repr

/-- Why the model refuses an action. -/
inductive Refusal where
  /-- Raised by exec for an instruction that has no meaning yet; safe. No instruction is in this case. -/
  | notModelled (mnemonic : String)
  /-- Raised by a bus access whose width is not 32 bits (R35); safe: the spec gives it no meaning. -/
  | accessWidth
  /-- Raised by a bus access at an offset that is not a multiple of 4 (R35); safe: the spec gives it no meaning. -/
  | accessMisaligned
  /-- Raised by a bus access at an offset of 0x24 or above (R39); safe: the spec gives it no meaning. -/
  | accessReserved
  deriving DecidableEq, Repr

/-- The content of slot `n`: the spec's `slot[n]` (R7, R10). -/
def State.slot (s : State) (n : SlotNum) : Option Buffer := s.slots[n.val]

/-- `slot[n] <- b` and `slot[n] <- FREE` (R7). -/
def State.setSlot (s : State) (n : SlotNum) (b : Option Buffer) : State :=
  { s with slots := s.slots.set n.val b }

/-- The machine right after reset (R27, R130): all slots `FREE`, every register zero, no fault; `CAP_PIXELS` at its default
(R4), and a host that has asked for nothing. -/
def State.reset : State where
  slots := Vector.replicate 16 none
  amount := 0
  bmin := 0
  bmax := 0
  pxpos := 0
  pxdata := 0
  fault := false
  cause := 0
  finfo := 0
  capPixels := Config.defaultCapPixels
  pending := []
  answers := []

end Sys2Proof.Machine
end

