-- ==== Sys2Proof/Machine/Flags.lean ====
section
/-! DEFINITION. The status flags: the cause codes of R110, the STATUS word of R21 and the VALID word of R23. The block has no
condition codes (R21): no command summarises a result in a flag. -/

namespace Sys2Proof.Machine

/-- The 4-bit code of a cause (R110). -/
def Cause.code : Cause → BitVec 4
  | .illegal => 1
  | .slotInvalid => 2
  | .slotOccupied => 3
  | .badBounds => 4
  | .capacity => 5
  | .oob => 6
  | .badAmount => 7

/-- What a read of `STATUS` returns: 24 zeros, `CAUSE`, 3 zeros, `FAULT` (R21, R36). -/
def State.statusWord (s : State) : Word :=
  0#24 ++ s.cause ++ 0#3 ++ BitVec.ofBool s.fault

/-- What a read of `VALID` returns: bit `i` is 1 when slot `i` is valid, bits 31 to 16 are 0 (R23, R36). -/
def State.validWord (s : State) : Word :=
  (BitVec.ofBoolListLE (s.slots.toList.map Option.isSome)).setWidth 32

end Sys2Proof.Machine
end

