-- ==== Sys2Proof/Machine/Operands.lean ====
section
/-! DEFINITION. The operand registers as a command reads and writes them (R14 to R18, R48): the command word holds no immediate. -/

namespace Sys2Proof.Machine

/-- The low half of a pair register: the x-part (R16, R17, R33). -/
def lowHalf (v : Word) : Coord := v.extractLsb' 0 16

/-- The high half of a pair register: the y-part (R16, R17, R33). -/
def highHalf (v : Word) : Coord := v.extractLsb' 16 16

/-- A pair register from its halves: y in 31:16, x in 15:0 (R16, R33). -/
def pairWord (y x : Coord) : Word := y ++ x

/-- The bounds in `BMIN` and `BMAX`, ALLOC's operand (R16, R48). -/
def State.boundsOperand (s : State) : Bounds where
  minX := lowHalf s.bmin
  minY := highHalf s.bmin
  maxX := lowHalf s.bmax
  maxY := highHalf s.bmax

/-- x of `PXPOS`, read as signed two's complement (R17, R48). -/
def State.posX (s : State) : Int := (lowHalf s.pxpos).toInt

/-- y of `PXPOS`, read as signed two's complement (R17, R48). -/
def State.posY (s : State) : Int := (highHalf s.pxpos).toInt

/-- The sample in a `PXDATA` word: R in 7:0, G in 15:8, B in 23:16, A in 31:24 (R18, R48). -/
def sampleOfWord (v : Word) : Sample where
  r := v.extractLsb' 0 8
  g := v.extractLsb' 8 8
  b := v.extractLsb' 16 8
  a := v.extractLsb' 24 8

/-- `{A, B, G, R}`: a sample as a `PXDATA` word (R18, R103). -/
def wordOfSample (p : Sample) : Word := p.a ++ p.b ++ p.g ++ p.r

end Sys2Proof.Machine
end

