-- ==== Sys2Proof/Machine/Ops.lean ====
section
/-! DEFINITION. The named operations every command is written over: bounds, sample access (R7), the fault entry of R113 and the return
of R118, and the frame of the commands that make a destination from a source (R70, R86). -/

namespace Sys2Proof.Machine

/-- What executing a command answers. -/
abbrev Result := Host.Outcome State Fault Refusal

/-- `minX <= maxX` and `minY <= maxY` (R11). -/
abbrev Bounds.Ordered (q : Bounds) : Prop :=
  q.minX.toInt ≤ q.maxX.toInt ∧ q.minY.toInt ≤ q.maxY.toInt

/-- `maxX - minX` (R11). -/
def Bounds.width (q : Bounds) : Nat := (q.maxX.toInt - q.minX.toInt).toNat

/-- `maxY - minY` (R11). -/
def Bounds.height (q : Bounds) : Nat := (q.maxY.toInt - q.minY.toInt).toNat

/-- `InBounds(b, x, y)`: the minimum is inside, the maximum outside (R7, R11). -/
abbrev Bounds.InBounds (q : Bounds) (x y : Int) : Prop :=
  (q.minX.toInt ≤ x ∧ x < q.maxX.toInt) ∧ (q.minY.toInt ≤ y ∧ y < q.maxY.toInt)

/-- The raster index of an in-bounds coordinate (R32). -/
def Bounds.linearIndex (q : Bounds) (x y : Int) : Nat :=
  ((y - q.minY.toInt) * (q.maxX.toInt - q.minX.toInt) + (x - q.minX.toInt)).toNat

/-- The number of samples of a buffer with these bounds (R11). -/
def Bounds.pixels (q : Bounds) : Nat := q.width * q.height

/-- The column of the sample table that holds coordinate `x` (R93's `i = x - minX`). -/
def Bounds.col (q : Bounds) (x : Int) : Nat := (x - q.minX.toInt).toNat

/-- The row of the sample table that holds coordinate `y`. -/
def Bounds.row (q : Bounds) (y : Int) : Nat := (y - q.minY.toInt).toNat

/-- `NewBuffer`: every in-bounds sample is `(0, 0, 0, 0)` (R7). -/
def newBuffer (q : Bounds) : Buffer where
  bounds := q
  rows := List.replicate q.height (List.replicate q.width Sample.zero)

/-- `PxRead(b, x, y)`: the sample at an in-bounds coordinate, and none outside: a buffer has no sample there (R7, R12). -/
def Buffer.pxRead? (b : Buffer) (x y : Int) : Option Sample :=
  if b.bounds.InBounds x y then
    match b.rows[b.bounds.row y]? with
    | some cells => cells[b.bounds.col x]?
    | none => none
  else none

/-- `PxWrite(b, x, y, p)` at an in-bounds coordinate; outside there is nothing to write (R7, R12). -/
def Buffer.pxWrite (b : Buffer) (x y : Int) (p : Sample) : Buffer :=
  if b.bounds.InBounds x y then
    { b with rows := b.rows.modify (b.bounds.row y) (fun cells => cells.set (b.bounds.col x) p) }
  else b

/-- A buffer that holds exactly one sample for every in-bounds coordinate and none else, its bounds in order (R11, R12). -/
abbrev Buffer.WF (b : Buffer) : Prop :=
  b.bounds.Ordered ∧ b.rows.length = b.bounds.height ∧
    ∀ cells ∈ b.rows, cells.length = b.bounds.width

/-- Every sample replaced by `f` of the sample at the same coordinate: the loops of `Pointwise` (R70), whose result does not
depend on the order of the visits. -/
def Buffer.mapSamples (f : Sample → Sample) (b : Buffer) : Buffer :=
  { b with rows := b.rows.map (fun cells => cells.map f) }

/-- Taking a fault (R113): `FAULT`, `CAUSE` and the whole command word in `FINFO`; nothing else is written. There is no saved
pc, no mode and no handler (R113), so this is all of it. -/
def raiseFault (word : Word) (c : Cause) (s : State) : State :=
  { s with fault := true, cause := c.code, finfo := word }

/-- The return from a fault (R118): the three fields are cleared; nothing else is restored because nothing else was changed. -/
def clearFault (s : State) : State :=
  { s with fault := false, cause := 0, finfo := 0 }

/-- `raise Fault(cause)` inside a command: the recorded word is the one word that encodes it (R47, R49, R113). -/
def raiseIn (i : Instr) (c : Cause) (s : State) : Result :=
  .next (raiseFault (encode i) c s)

/-- A command that makes slot `rd` from slot `rs`: the source must be valid, then the destination `FREE`; then the destination
is written as a whole and nothing else changes (R70, R86, R115, R116). -/
def produce (i : Instr) (rd rs : SlotNum) (make : Buffer → Buffer) (s : State) : Result :=
  match s.slot rs with
  | none => raiseIn i .slotInvalid s
  | some src =>
    match s.slot rd with
    | some _ => raiseIn i .slotOccupied s
    | none => .next (s.setSlot rd (some (make src)))

/-- `Pointwise(rd, rs, f)` (R70). -/
def pointwise (i : Instr) (rd rs : SlotNum) (f : Sample → Sample) (s : State) : Result :=
  produce i rd rs (Buffer.mapSamples f) s

end Sys2Proof.Machine
end

