-- ==== Sys2Proof/Machine/BufferOps.lean ====
section
/-! DEFINITION. The buffer operations of 45_buffer_ops.md: ALLOC, FREE, GETB, GETPX, PUTPX and COPY (R95 to R105). -/

namespace Sys2Proof.Machine

/-- `ALLOC rd` (R96): the tests in the rule's order, on mathematical integers; then a zero-filled buffer. -/
def execAlloc (rd : SlotNum) (s : State) : Result :=
  match s.slot rd with
  | some _ => raiseIn (.alloc rd) .slotOccupied s
  | none =>
    let q := s.boundsOperand
    if q.maxX.toInt < q.minX.toInt ∨ q.maxY.toInt < q.minY.toInt then
      raiseIn (.alloc rd) .badBounds s
    else if (q.maxX.toInt - q.minX.toInt) * (q.maxY.toInt - q.minY.toInt) > (s.capPixels : Int) then
      raiseIn (.alloc rd) .capacity s
    else .next (s.setSlot rd (some (newBuffer q)))

/-- `FREE rd` (R98). -/
def execFree (rd : SlotNum) (s : State) : Result :=
  match s.slot rd with
  | none => raiseIn (.free rd) .slotInvalid s
  | some _ => .next (s.setSlot rd none)

/-- `GETB rs` (R102). -/
def execGetb (rs : SlotNum) (s : State) : Result :=
  match s.slot rs with
  | none => raiseIn (.getb rs) .slotInvalid s
  | some b =>
    .next { s with
      bmin := pairWord b.bounds.minY b.bounds.minX
      bmax := pairWord b.bounds.maxY b.bounds.maxX }

/-- `GETPX rs` (R103). -/
def execGetpx (rs : SlotNum) (s : State) : Result :=
  match s.slot rs with
  | none => raiseIn (.getpx rs) .slotInvalid s
  | some b =>
    if b.bounds.InBounds s.posX s.posY then
      match b.pxRead? s.posX s.posY with
      | some p => .next { s with pxdata := wordOfSample p }
      | none => .fault .sampleMissing
    else raiseIn (.getpx rs) .oob s

/-- `PUTPX rd` (R104). -/
def execPutpx (rd : SlotNum) (s : State) : Result :=
  match s.slot rd with
  | none => raiseIn (.putpx rd) .slotInvalid s
  | some b =>
    if b.bounds.InBounds s.posX s.posY then
      match b.pxRead? s.posX s.posY with
      | some _ => .next (s.setSlot rd (some (b.pxWrite s.posX s.posY (sampleOfWord s.pxdata))))
      | none => .fault .sampleMissing
    else raiseIn (.putpx rd) .oob s

/-- `COPY rd, rs`: every sample verbatim, alpha included (R99, R100). -/
def execCopy (rd rs : SlotNum) (s : State) : Result :=
  pointwise (.copy rd rs) rd rs (fun p => p) s

end Sys2Proof.Machine
end

