-- ==== Sys2Proof/Machine/Samples.lean ====
section
/-! DEFINITION. The sample operations of 40_sample_ops.md (R60 to R69) and the contrast function of R71, each as the exact rational
function the spec defines and as the integer form the spec derives from it. The commands use the integer forms. -/

namespace Sys2Proof.Machine

/-- `normalize(c) = c / SCALE_MAX` (R61). -/
def normalize (c : Nat) : Rat := (c : Rat) / (Config.scaleMax : Rat)

/-- `clampToByte(q)`: saturate to [0, 255] and drop the fraction (R62). -/
def clampToByte (q : Rat) : Nat :=
  if 255 < q then 255
  else if q < 0 then 0
  else q.floor.toNat

/-- `luminance(r, g, b)`, normalised by the scale and expressed on 0 to 255 (R63). -/
def luminance (r g b : Nat) : Rat :=
  ((Config.lumaR * r + Config.lumaG * g + Config.lumaB * b : Nat) : Rat) / (Config.lumaDen : Rat)
    / (Config.scaleMax : Rat) * 255

/-- `gray(r, g, b)`, the byte GRAY stores, in integer form (R64). -/
def gray (r g b : Byte) : Byte :=
  BitVec.ofNat 8
    ((Config.lumaR * r.toNat + Config.lumaG * g.toNat + Config.lumaB * b.toNat) / Config.lumaDen)

/-- `wadd(t, k, j)` as R65 defines it: the kernel channel weighted by `0.2 / j`, added and clamped. -/
def waddExact (t k j : Nat) : Nat :=
  clampToByte ((t : Rat) + 1 / (Config.blurDen : Rat) / (j : Rat) * (k : Rat))

/-- `wadd(t, k, j)` in integer form (R66). -/
def wadd (t k : Byte) (j : Nat) : Byte :=
  BitVec.ofNat 8 (min 255 (t.toNat + k.toNat / (Config.blurDen * j)))

/-- `inv(v) = SCALE_MAX - v` (R67). -/
def inv (v : Byte) : Byte := BitVec.ofNat 8 (Config.scaleMax - v.toNat)

/-- `con(v, a)` as R71 first defines it, for the exact amount `a`. -/
def conExact (v : Nat) (a : Rat) : Nat :=
  clampToByte (((normalize v - 1 / 2) * a + 1 / 2) * 255)

/-- The numerator `N` of R71's integer form: a signed integer of unbounded width (R68). -/
def conNumerator (v : Byte) (amount : Word) : Int :=
  (2 * (v.toNat : Int) - 255) * (amount.toNat : Int) + 16711680

/-- `con(v)` in integer form: `floor(N / 2^17)` saturated to a byte (R71). `Int` division by a positive number is the floor. -/
def con (v : Byte) (amount : Word) : Byte :=
  BitVec.ofNat 8 (min 255 (max 0 (conNumerator v amount / 131072))).toNat

/-- CONTRAST's sample function: R, G, B each by `con`, alpha carried (R69, R71). -/
def contrastSample (amount : Word) (p : Sample) : Sample :=
  { r := con p.r amount, g := con p.g amount, b := con p.b amount, a := p.a }

/-- GRAY's sample function: one luminance byte in R, G and B, alpha carried (R69, R76). -/
def graySample (p : Sample) : Sample :=
  { r := gray p.r p.g p.b, g := gray p.r p.g p.b, b := gray p.r p.g p.b, a := p.a }

/-- INVERT's sample function: R, G, B each subtracted from 255, alpha carried (R69, R81). -/
def invertSample (p : Sample) : Sample :=
  { r := inv p.r, g := inv p.g, b := inv p.b, a := p.a }

/-- One update of MBLUR: the target `t` at offset `j` of the kernel sample `k`; the target's alpha is kept (R86, R90). -/
def smearSample (t k : Sample) (j : Nat) : Sample :=
  { r := wadd t.r k.r j, g := wadd t.g k.g j, b := wadd t.b k.b j, a := t.a }

end Sys2Proof.Machine
end

