-- ==== Sys2Proof/Machine/Filters.lean ====
section
/-! DEFINITION. The three pointwise filters: CONTRAST (R71, R72), GRAY (R76) and INVERT (R81). -/

namespace Sys2Proof.Machine

/-- `CONTRAST rd, rs` (R71): the three tests in the order of their causes, then the pointwise frame with the amount in `AMOUNT`. -/
def execContrast (rd rs : SlotNum) (s : State) : Result :=
  match s.slot rs with
  | none => raiseIn (.contrast rd rs) .slotInvalid s
  | some _ =>
    match s.slot rd with
    | some _ => raiseIn (.contrast rd rs) .slotOccupied s
    | none =>
      if s.amount = 0 then raiseIn (.contrast rd rs) .badAmount s
      else pointwise (.contrast rd rs) rd rs (contrastSample s.amount) s

/-- `GRAY rd, rs` (R76). -/
def execGray (rd rs : SlotNum) (s : State) : Result :=
  pointwise (.gray rd rs) rd rs graySample s

/-- `INVERT rd, rs` (R81). -/
def execInvert (rd rs : SlotNum) (s : State) : Result :=
  pointwise (.invert rd rs) rd rs invertSample s

end Sys2Proof.Machine
end

