-- ==== Sys2Proof/Machine/MotionBlur.lean ====
section
/-! DEFINITION. MBLUR (R85 to R94), each row as R93's fold over increasing x. Machine/Raster.lean has R86's pseudocode itself. -/

namespace Sys2Proof.Machine

/-- One target of a kernel sample: offset `j` from column `i`. A target at or beyond the width is neither read nor written
(R87). -/
def smearAt (k : Sample) (i : Nat) (cells : List Sample) (j : Nat) : List Sample :=
  match cells[i + j]? with
  | some t => cells.set (i + j) (smearSample t k j)
  | none => cells

/-- The offsets of R86, 1 to 99 in increasing order. -/
def blurOffsets : List Nat := (List.range Config.blurTaps).map (· + 1)

/-- One kernel position: the current sample at column `i`, read once (R89), smeared over the offsets 1 to 99. -/
def blurFrom (cells : List Sample) (i : Nat) : List Sample :=
  match cells[i]? with
  | some k => blurOffsets.foldl (smearAt k i) cells
  | none => cells

/-- One row: kernel positions in strictly increasing order, each seeing what the earlier ones wrote (R88, R93). -/
def blurRow (cells : List Sample) : List Sample :=
  (List.range cells.length).foldl blurFrom cells

/-- The blurred copy of a buffer; rows are independent (R86, R88, R94). -/
def Buffer.motionBlur (b : Buffer) : Buffer :=
  { b with rows := b.rows.map blurRow }

/-- `MBLUR rd, rs` (R86); the working buffer is the destination slot (R94). -/
def execMblur (rd rs : SlotNum) (s : State) : Result :=
  produce (.mblur rd rs) rd rs Buffer.motionBlur s

end Sys2Proof.Machine
end

