-- ==== Sys2Proof/Machine/Dispatch.lean ====
section
/-! DEFINITION. The meaning of every command (R49, R50): one arm per row of the opcode table. -/

namespace Sys2Proof.Machine

def exec (i : Instr) (s : State) : Host.Outcome State Fault Refusal :=
  match i with
  | .alloc rd => Sys2Proof.Machine.execAlloc rd s
  | .free rd => Sys2Proof.Machine.execFree rd s
  | .getb rs => Sys2Proof.Machine.execGetb rs s
  | .getpx rs => Sys2Proof.Machine.execGetpx rs s
  | .putpx rd => Sys2Proof.Machine.execPutpx rd s
  | .copy rd rs => Sys2Proof.Machine.execCopy rd rs s
  | .contrast rd rs => Sys2Proof.Machine.execContrast rd rs s
  | .gray rd rs => Sys2Proof.Machine.execGray rd rs s
  | .invert rd rs => Sys2Proof.Machine.execInvert rd rs s
  | .mblur rd rs => Sys2Proof.Machine.execMblur rd rs s

end Sys2Proof.Machine
end

