-- ==== Sys2Proof/Machine/Window.lean ====
section
/-! DEFINITION. The register window: `Execute` (R49), `RegRead` (R36), `RegWrite` (R37), the bus accesses the spec leaves undefined
(R35, R39), and reset as an event (R130). -/

namespace Sys2Proof.Machine

/-- `Execute(v)`: a word that is no command raises `ILLEGAL` (R49, R51). -/
def execute (v : Word) (s : State) : Result :=
  match decode v with
  | .instr i => exec i s
  | .illegal _ => .next (raiseFault v .illegal s)

/-- `RegRead`: the value returned; no read has a side effect (R36, R38). -/
def regRead (r : Reg) (s : State) : Word :=
  match r with
  | .cmd => 0
  | .status => s.statusWord
  | .finfo => s.finfo
  | .amount => s.amount
  | .bmin => s.bmin
  | .bmax => s.bmax
  | .pxpos => s.pxpos
  | .pxdata => s.pxdata
  | .valid => s.validWord

/-- `RegWrite` (R37): a write to `CMD` is dropped while `FAULT` is 1 (R114), else runs the command to its end (R40); a write to
`STATUS` with bit 0 set clears the fault (R118); `FINFO` and `VALID` ignore writes. -/
def regWrite (r : Reg) (v : Word) (s : State) : Result :=
  match r with
  | .cmd => if s.fault then .next s else execute v s
  | .status => .next (if v.getLsbD 0 then clearFault s else s)
  | .finfo => .next s
  | .amount => .next { s with amount := v }
  | .bmin => .next { s with bmin := v }
  | .bmax => .next { s with bmax := v }
  | .pxpos => .next { s with pxpos := v }
  | .pxdata => .next { s with pxdata := v }
  | .valid => .next s

/-- The event "reset happened" (R130): every piece of the block's state takes its reset value; the parameters do not change
(R131), and the host keeps what it has still to ask and what it was told. -/
def resetEvent (s : State) : State :=
  { State.reset with capPixels := s.capPixels, pending := s.pending, answers := s.answers }

/-- The refusal of an access the spec does not define (R35, R39). -/
def refusalOf : AccessDefect → Refusal
  | .width => .accessWidth
  | .misaligned => .accessMisaligned
  | .reserved => .accessReserved

/-- A 32-bit aligned access at one of the nine offsets goes to its location; any other is refused by name (R34, R35, R39). -/
def access (bits off : Nat) (act : Reg → Result) : Result :=
  match accessDefect bits off with
  | some d => .refused (refusalOf d)
  | none =>
    match Reg.ofOffset? off with
    | some r => act r
    | none => .refused .accessReserved

/-- One host action on the block (R36, R37, R130). -/
def perform (a : HostAction) (s : State) : Result :=
  match a with
  | .read bits off => access bits off (fun r => .next { s with answers := regRead r s :: s.answers })
  | .write bits off v => access bits off (fun r => regWrite r v s)
  | .reset => .next (resetEvent s)

/-- The next host action in the host's total order (R41); with none the state does not change (R132). -/
def stepHost (s : State) : Result :=
  match s.pending with
  | [] => .next s
  | a :: rest => perform a { s with pending := rest }

/-- A command word placed as the host's next write to `CMD`, `FAULT` being clear so that it is not dropped (R114). -/
def placeCommand (v : Word) (s : State) : State :=
  let t := if s.fault then clearFault s else s
  { t with pending := .wr .cmd v :: t.pending }

end Sys2Proof.Machine
end

