-- ==== Sys2Proof/Machine/Step.lean ====
section
/-! DEFINITION. One step: the host's next action, a write to CMD containing the whole command (R40, R41). -/

namespace Sys2Proof.Machine

/-- One step of the machine. -/
def step (s : State) : Host.Outcome State Fault Refusal := stepHost s

/-- The state whose next step is a `CMD` write of the given command word: the block fetches nothing (R19, R43), a command is the
data of a `CMD` write (R45). A number of more than 32 bits is no command word and leaves the state as it is. -/
def State.withFetchWord (s : State) (nbits w : Nat) : State :=
  match tableWord? nbits w with
  | some v => placeCommand v s
  | none => s

end Sys2Proof.Machine
end

