-- ==== Sys2Proof/Machine/Raster.lean ====
section
/-! DEFINITION. The pseudocode of R70 and R86 written coordinate by coordinate over `PxRead` and `PxWrite`, and R93's fold over one
channel. The machine does not call these: statements say that what it does call gives the same result. -/

namespace Sys2Proof.Machine

/-- `for v from lo to hi - 1` (R7). -/
def intsFrom (lo hi : Int) : List Int := (List.range (hi - lo).toNat).map (fun (n : Nat) => lo + (n : Int))

/-- Two nested loops in raster order: y outside, x inside (R8, R70, R86). -/
def rasterFold (q : Bounds) (visit : Buffer → Int → Int → Buffer) (start : Buffer) : Buffer :=
  (intsFrom q.minY.toInt q.maxY.toInt).foldl
    (fun d y => (intsFrom q.minX.toInt q.maxX.toInt).foldl (fun d x => visit d x y) d) start

/-- The body of `Pointwise`: a new buffer, then every sample written once (R70). -/
def pointwiseRaster (f : Sample → Sample) (src : Buffer) : Buffer :=
  rasterFold src.bounds
    (fun d x y =>
      match src.pxRead? x y with
      | some p => d.pxWrite x y (f p)
      | none => d)
    (newBuffer src.bounds)

/-- The j loop of R86 at one kernel position. -/
def blurTargets (k : Sample) (x y : Int) (w : Buffer) : Buffer :=
  (List.range 99).foldl
    (fun w n =>
      let j : Nat := n + 1
      if x + (j : Int) < w.bounds.maxX.toInt then
        match w.pxRead? (x + (j : Int)) y with
        | some t => w.pxWrite (x + (j : Int)) y (smearSample t k j)
        | none => w
      else w)
    w

/-- R86 after its two tests: the deep copy, then the kernel positions in raster order. -/
def motionBlurRaster (src : Buffer) : Buffer :=
  rasterFold src.bounds
    (fun w x y =>
      match w.pxRead? x y with
      | some k => blurTargets k x y w
      | none => w)
    (pointwiseRaster (fun p => p) src)

/-- R93: one channel of one row. -/
def blurChannel (c : List Byte) : List Byte :=
  (List.range c.length).foldl
    (fun c i =>
      let k := c.getD i 0
      (List.range (min 99 (c.length - 1 - i))).foldl
        (fun c n => c.set (i + (n + 1)) (wadd (c.getD (i + (n + 1)) 0) k (n + 1))) c)
    c

end Sys2Proof.Machine
end

