-- ==== Sys2Proof/Machine/Script.lean ====
section
/-! DEFINITION. The host script lines of R53 and the pseudo-commands of R54, each as the host actions it stands for. -/

namespace Sys2Proof.Machine

/-- The names of the locations in a script (R53). -/
def regName : Reg → String
  | .cmd => "CMD"
  | .status => "STATUS"
  | .finfo => "FINFO"
  | .amount => "AMOUNT"
  | .bmin => "BMIN"
  | .bmax => "BMAX"
  | .pxpos => "PXPOS"
  | .pxdata => "PXDATA"
  | .valid => "VALID"

/-- `b<n>`: slot `n` in decimal (R53). -/
def slotName (n : SlotNum) : String := "b" ++ toString n.val

/-- The operands of a command line, the destination written first (R53). -/
def operandText : Instr → String
  | .alloc rd => slotName rd
  | .free rd => slotName rd
  | .getb rs => slotName rs
  | .getpx rs => slotName rs
  | .putpx rd => slotName rd
  | .copy rd rs => slotName rd ++ ", " ++ slotName rs
  | .contrast rd rs => slotName rd ++ ", " ++ slotName rs
  | .gray rd rs => slotName rd ++ ", " ++ slotName rs
  | .invert rd rs => slotName rd ++ ", " ++ slotName rs
  | .mblur rd rs => slotName rd ++ ", " ++ slotName rs

/-- A command in the textual syntax of R53. -/
def commandText (i : Instr) : String := i.mnemonic ++ " " ++ operandText i

/-- One line of a host script (R53). -/
inductive ScriptLine where
  /-- `WR <REG>, <value>` -/
  | wr (r : Reg) (v : Word)
  /-- `RD <REG>` -/
  | rd (r : Reg)
  /-- a mnemonic and its slots -/
  | command (i : Instr)
  deriving DecidableEq, Repr

/-- The line as R53 writes it, the value of a `WR` in hexadecimal. -/
def ScriptLine.text : ScriptLine → String
  | .wr r v => "WR " ++ regName r ++ ", 0x" ++ v.toHex
  | .rd r => "RD " ++ regName r
  | .command i => commandText i

/-- The host action a line stands for (R53): a command line is a write of its word to `CMD`. -/
def ScriptLine.action : ScriptLine → HostAction
  | .wr r v => .wr r v
  | .rd r => .rd r
  | .command i => .wr .cmd (encode i)

/-- A command line of R53 as its host action. -/
def issue (i : Instr) : HostAction := (ScriptLine.command i).action

/-- `u16(n)`, the 16-bit field that holds the signed integer `n` (R6). -/
def u16 (n : Int) : Coord := BitVec.ofInt 16 n

/-- `SETBOUNDS minX, minY, maxX, maxY` (R54). -/
def setBounds (minX minY maxX maxY : Int) : List HostAction :=
  [.wr .bmin (pairWord (u16 minY) (u16 minX)), .wr .bmax (pairWord (u16 maxY) (u16 maxX))]

/-- `SETAMOUNT q`, given as the raw number `q * 65536` (R54). -/
def setAmount (raw : Word) : List HostAction := [.wr .amount raw]

/-- `STOREPX b<rd>, x, y, p` (R54). -/
def storePx (rd : SlotNum) (x y : Int) (p : Sample) : List HostAction :=
  [.wr .pxpos (pairWord (u16 y) (u16 x)), .wr .pxdata (wordOfSample p), issue (.putpx rd)]

/-- `LOADPX b<rs>, x, y` (R54). -/
def loadPx (rs : SlotNum) (x y : Int) : List HostAction :=
  [.wr .pxpos (pairWord (u16 y) (u16 x)), issue (.getpx rs), .rd .pxdata]

/-- `CLRFAULT` (R54). -/
def clrFault : List HostAction := [.wr .status 1]

/-- The script run from `s`, one step for each of its actions; what the host had still to ask stays after it. -/
def runScript (script : List HostAction) (s : State) : Result :=
  Sys2Proof.core.run script.length { s with pending := script ++ s.pending }

end Sys2Proof.Machine
end

