-- ==== Sys2Proof/Safety.lean ====
section
/-! DEFINITION. The terms claims are stated in: the invariant of the block, what a step leaves alone, the fault conditions of R110 and
the causes of R112. -/

namespace Sys2Proof.Machine

/-- The next state, where there is one. -/
def nextOf : Result → Option State
  | .next t => some t
  | .fault _ => none
  | .refused _ => none

/-- The sample space of R30 (a): the sample of slot `n` at `(x, y)`, where there is one. -/
def State.sample? (s : State) (n : SlotNum) (x y : Int) : Option Sample :=
  match s.slot n with
  | some b => b.pxRead? x y
  | none => none

/-- The causes a command can raise after decoding, in the order of their tests (R112). -/
def causesOf : Instr → List Cause
  | .alloc _ => [.slotOccupied, .badBounds, .capacity]
  | .free _ => [.slotInvalid]
  | .getb _ => [.slotInvalid]
  | .getpx _ => [.slotInvalid, .oob]
  | .putpx _ => [.slotInvalid, .oob]
  | .copy _ _ => [.slotInvalid, .slotOccupied]
  | .contrast _ _ => [.slotInvalid, .slotOccupied, .badAmount]
  | .gray _ _ => [.slotInvalid, .slotOccupied]
  | .invert _ _ => [.slotInvalid, .slotOccupied]
  | .mblur _ _ => [.slotInvalid, .slotOccupied]

/-- The slot that must hold a buffer for the command to run (R115). -/
def mustHold : Instr → Option SlotNum
  | .alloc _ => none
  | .free rd => some rd
  | .getb rs => some rs
  | .getpx rs => some rs
  | .putpx rd => some rd
  | .copy _ rs => some rs
  | .contrast _ rs => some rs
  | .gray _ rs => some rs
  | .invert _ rs => some rs
  | .mblur _ rs => some rs

/-- The slot that must be `FREE` for the command to run (R116). -/
def mustBeFree : Instr → Option SlotNum
  | .alloc rd => some rd
  | .free _ => none
  | .getb _ => none
  | .getpx _ => none
  | .putpx _ => none
  | .copy rd _ => some rd
  | .contrast rd _ => some rd
  | .gray rd _ => some rd
  | .invert rd _ => some rd
  | .mblur rd _ => some rd

/-- "Raised when" of R110, for a cause the command can raise. -/
def FaultCondition (i : Instr) (c : Cause) (s : State) : Prop :=
  match c with
  | .illegal => False
  | .slotInvalid => ∃ n, mustHold i = some n ∧ s.slot n = none
  | .slotOccupied => ∃ n b, mustBeFree i = some n ∧ s.slot n = some b
  | .badBounds =>
    (s.bmax.extractLsb' 0 16).toInt < (s.bmin.extractLsb' 0 16).toInt ∨
      (s.bmax.extractLsb' 16 16).toInt < (s.bmin.extractLsb' 16 16).toInt
  | .capacity =>
    ((s.bmax.extractLsb' 0 16).toInt - (s.bmin.extractLsb' 0 16).toInt) *
      ((s.bmax.extractLsb' 16 16).toInt - (s.bmin.extractLsb' 16 16).toInt) > (s.capPixels : Int)
  | .oob =>
    ∃ n b, mustHold i = some n ∧ s.slot n = some b ∧
      ¬ b.bounds.InBounds (s.pxpos.extractLsb' 0 16).toInt (s.pxpos.extractLsb' 16 16).toInt
  | .badAmount => s.amount = 0

/-- A recorded cause is one the recorded word can raise: `ILLEGAL` for a word that is no command, else one of the command's own
(R110, R112). -/
def causeFits (word : Word) (code : BitVec 4) : Bool :=
  match decode word with
  | .illegal _ => code == Cause.code .illegal
  | .instr i => (causesOf i).any (fun c => c.code == code)

/-- The fault record: all zero with no fault (R21, R22), and otherwise a cause that fits the recorded word (R110, R113). -/
abbrev State.FaultRecordOk (s : State) : Prop :=
  (s.fault = false → s.cause = 0 ∧ s.finfo = 0) ∧ (s.fault = true → causeFits s.finfo s.cause = true)

/-- Every valid slot holds a well-formed buffer within the capacity (R11, R12). -/
abbrev State.SlotsOk (s : State) : Prop :=
  ∀ n : SlotNum, ∀ b ∈ s.slot n, b.WF ∧ b.bounds.pixels ≤ s.capPixels

/-- The invariant of the block: what R11, R12, R21 and R22 say holds in every state the block is in. -/
abbrev State.Inv (s : State) : Prop := s.SlotsOk ∧ s.FaultRecordOk

/-- The five operand registers are as before. -/
abbrev OperandsKept (s t : State) : Prop :=
  t.amount = s.amount ∧ t.bmin = s.bmin ∧ t.bmax = s.bmax ∧ t.pxpos = s.pxpos ∧ t.pxdata = s.pxdata

/-- `STATUS` and `FINFO` are as before. -/
abbrev StatusKept (s t : State) : Prop :=
  t.fault = s.fault ∧ t.cause = s.cause ∧ t.finfo = s.finfo

/-- The parameter and the host's side are as before. -/
abbrev HostSideKept (s t : State) : Prop :=
  t.capPixels = s.capPixels ∧ t.pending = s.pending ∧ t.answers = s.answers

/-- No slot has changed. -/
abbrev SlotsKept (s t : State) : Prop := ∀ n, t.slot n = s.slot n

/-- Nothing but slot `rd` has changed. -/
abbrev OnlySlotChanges (rd : SlotNum) (s t : State) : Prop :=
  (∀ n, n ≠ rd → t.slot n = s.slot n) ∧ OperandsKept s t ∧ StatusKept s t ∧ HostSideKept s t

/-- The command takes the fault `c` and does nothing else (R113). -/
abbrev Raises (i : Instr) (c : Cause) (s : State) : Prop :=
  ∃ t, exec i s = .next t ∧ t.fault = true ∧ t.cause = c.code ∧ t.finfo = encode i ∧
    SlotsKept s t ∧ OperandsKept s t ∧ HostSideKept s t

/-- The two tests of a two-slot command, in their order: the source, then the destination (R70, R86, R115, R116). -/
abbrev SourceThenDestination (i : Instr) (rd rs : SlotNum) (s : State) : Prop :=
  (s.slot rs = none → Raises i .slotInvalid s) ∧
    ∀ src b, s.slot rs = some src → s.slot rd = some b → Raises i .slotOccupied s

/-- The command word with opcode `opc` as R53 writes it: `opc | rd<<8 | rs<<12`. -/
def scriptWord (opc : Word) (rd rs : SlotNum) : Word :=
  opc ||| (BitVec.ofNat 32 rd.val <<< 8) ||| (BitVec.ofNat 32 rs.val <<< 12)

/-- `d` has the bounds of `b` and, at every in-bounds coordinate, a sample that `rel` relates to the sample of `b` there. -/
def SampleWise (rel : Sample → Sample → Prop) (b d : Buffer) : Prop :=
  d.WF ∧ d.bounds = b.bounds ∧
    ∀ x y, b.bounds.InBounds x y → ∃ p q, b.pxRead? x y = some p ∧ d.pxRead? x y = some q ∧ rel p q

/-- A 32-bit read at offset `off` answers `value` and changes nothing else (R36). -/
def ReadAnswers (off : Nat) (value : State → Word) : Prop :=
  ∀ s rest, s.pending = .read 32 off :: rest →
    step s = .next { s with pending := rest, answers := value s :: s.answers }

/-- A 32-bit write of `v` at offset `off` has the effect `does v` (R37). -/
def WriteDoes (off : Nat) (does : Word → State → State) : Prop :=
  ∀ s v rest, s.pending = .write 32 off v :: rest → step s = .next (does v { s with pending := rest })

/-- A host with nothing before this write to `CMD`. -/
abbrev State.IssuesNext (s : State) (v : Word) (rest : List HostAction) : Prop :=
  s.pending = .write 32 0x00 v :: rest

/-- The words R51 calls illegal, by the numbers of the word: bits 31:16, then `OPC`, then the slot field a format does not use. -/
abbrev IllegalWord (v : Word) : Prop :=
  v.toNat / 65536 ≠ 0 ∨
    v.toNat % 256 = 0x00 ∨ (0x06 ≤ v.toNat % 256 ∧ v.toNat % 256 ≤ 0x0F) ∨ 0x15 ≤ v.toNat % 256 ∨
    ((v.toNat % 256 = 0x01 ∨ v.toNat % 256 = 0x02 ∨ v.toNat % 256 = 0x05) ∧ v.toNat / 4096 % 16 ≠ 0) ∨
    ((v.toNat % 256 = 0x03 ∨ v.toNat % 256 = 0x04) ∧ v.toNat / 256 % 16 ≠ 0)

end Sys2Proof.Machine
end

