-- ==== Sys2Proof/Certificates/Slice0/Obligations.lean ====
section
/-! DEFINITION. The statements for the provers. Each docstring names the rule of spec/ it formalises. -/

open Sys2Proof Sys2Proof.Machine

/-! ### Encoding -/

/-- R45, R47, R50: decoding the word of a command gives the command back, for every slot operand. -/
def Obligations.DecodeOfEncodeIsTheCommand : Prop :=
  ∀ i : Instr, decode (encode i) = .instr i

/-- R47, R49: a command has one word only; every bit of a word that decodes is in the command. -/
def Obligations.DecodedWordIsTheEncoding : Prop :=
  ∀ (v : Word) (i : Instr), decode v = .instr i → encode i = v

/-- R47: a word is the command of a row exactly when `v AND mask = match`, with the masks of the three formats. -/
def Obligations.DecodeAgreesWithMatchAndMask : Prop :=
  (Format.d.mask = 0xFFFFF0FF ∧ Format.s.mask = 0xFFFF0FFF ∧ Format.ds.mask = 0xFFFF00FF) ∧
  ∀ (v : Word) (row : Row), row ∈ opcodeRows →
    ((∃ i, decode v = .instr i ∧ i.mnemonic = row.mnemonic) ↔ v &&& row.format.mask = row.pattern)

/-- R51: the illegal words are exactly those it lists, and executing one raises `ILLEGAL` and does nothing else. -/
def Obligations.IllegalWordsRaiseIllegal : Prop :=
  (∀ v : Word, ¬ IllegalWord v ↔ ∃ i, decode v = .instr i) ∧
  ∀ (s : State) (v : Word) (rest : List HostAction),
    s.IssuesNext v rest → s.fault = false → IllegalWord v →
    step s = .next { s with pending := rest, fault := true, cause := 1, finfo := v }

/-- Section 2.7 of the test vectors, R50: words written out from the encoding decode to what they stand for. -/
def Obligations.WrittenOutWordsDecode : Prop :=
  decode 0x00000F01 = .instr (.alloc 15) ∧ decode 0x00000302 = .instr (.free 3) ∧
  decode 0x00002003 = .instr (.getb 2) ∧ decode 0x00001004 = .instr (.getpx 1) ∧
  decode 0x00000405 = .instr (.putpx 4) ∧ decode 0x00000110 = .instr (.copy 1 0) ∧
  decode 0x00000411 = .instr (.contrast 4 0) ∧ decode 0x00000212 = .instr (.gray 2 0) ∧
  decode 0x00000113 = .instr (.invert 1 0) ∧ decode 0x00003514 = .instr (.mblur 5 3) ∧
  decode 0x00010013 = .illegal .zeroField ∧ decode 0x00001001 = .illegal .rsField ∧
  decode 0x00000103 = .illegal .rdField ∧ decode 0x00000015 = .illegal .opcode

/-! ### The register window and the step -/

/-- R40, R49: a write of a decodable word to `CMD` with `FAULT = 0` is exec of the command, the host action having been taken. -/
def Obligations.StepRunsTheDecodedCommand : Prop :=
  ∀ (s : State) (v : Word) (rest : List HostAction) (i : Instr),
    s.IssuesNext v rest → s.fault = false → decode v = .instr i →
    step s = exec i { s with pending := rest }

/-- R36: what each location answers, bit by bit for `STATUS` and `VALID`, and that no read changes anything else. -/
def Obligations.RegisterReadsAnswerAndChangeNothing : Prop :=
  ReadAnswers 0x00 (fun _ => 0x00000000) ∧
  ReadAnswers 0x08 (fun s => s.finfo) ∧ ReadAnswers 0x0C (fun s => s.amount) ∧
  ReadAnswers 0x10 (fun s => s.bmin) ∧ ReadAnswers 0x14 (fun s => s.bmax) ∧
  ReadAnswers 0x18 (fun s => s.pxpos) ∧ ReadAnswers 0x1C (fun s => s.pxdata) ∧
  (∃ status : State → Word, ReadAnswers 0x04 status ∧
    ∀ (s : State) (k : Nat), k < 32 → (status s).getLsbD k =
      if k = 0 then s.fault else if 4 ≤ k ∧ k ≤ 7 then s.cause.getLsbD (k - 4) else false) ∧
  (∃ valid : State → Word, ReadAnswers 0x20 valid ∧
    ∀ (s : State) (k : Nat), k < 32 → (valid s).getLsbD k =
      if h : k < 16 then (s.slot ⟨k, h⟩).isSome else false)

/-- R37: what a write to each location does, whatever `FAULT` is. -/
def Obligations.RegisterWritesHaveTheirEffect : Prop :=
  (∀ (s : State) (v : Word) (rest : List HostAction), s.IssuesNext v rest →
    (s.fault = true → step s = .next { s with pending := rest }) ∧
    (s.fault = false → step s = execute v { s with pending := rest })) ∧
  WriteDoes 0x04 (fun v s => if v.getLsbD 0 = true then { s with fault := false, cause := 0, finfo := 0 } else s) ∧
  WriteDoes 0x08 (fun _ s => s) ∧
  WriteDoes 0x0C (fun v s => { s with amount := v }) ∧
  WriteDoes 0x10 (fun v s => { s with bmin := v }) ∧
  WriteDoes 0x14 (fun v s => { s with bmax := v }) ∧
  WriteDoes 0x18 (fun v s => { s with pxpos := v }) ∧
  WriteDoes 0x1C (fun v s => { s with pxdata := v }) ∧
  WriteDoes 0x20 (fun _ s => s)

/-- R35, R39: an access that is not 32 bits wide, not at a multiple of 4, or at 0x24 or above is refused; every other read
completes. The order in which the three defects are named is the model's (log entry 5) and is not stated here. -/
def Obligations.UndefinedAccessesAreRefused : Prop :=
  ∀ (s : State) (rest : List HostAction) (bits off : Nat) (v : Word),
    ((bits ≠ 32 ∨ off % 4 ≠ 0 ∨ 0x24 ≤ off) →
      (s.pending = .read bits off :: rest → ∃ r, step s = .refused r) ∧
      (s.pending = .write bits off v :: rest → ∃ r, step s = .refused r)) ∧
    (bits = 32 → off % 4 = 0 → off < 0x24 → s.pending = .read bits off :: rest → ∃ t, step s = .next t)

/-- R114: while `FAULT` is 1 a `CMD` write changes nothing, and every other location is read and written as usual. -/
def Obligations.CommandsAreDroppedWhileFaulted : Prop :=
  ∀ (s : State) (rest : List HostAction) (v : Word), s.fault = true →
    (s.IssuesNext v rest → step s = .next { s with pending := rest }) ∧
    (∀ r : Reg, s.pending = .read 32 r.offset :: rest →
      step s = .next { s with pending := rest, answers := regRead r s :: s.answers }) ∧
    (s.pending = .write 32 0x04 v :: rest →
      step s = .next (if v.getLsbD 0 = true then { s with pending := rest, fault := false, cause := 0, finfo := 0 }
        else { s with pending := rest })) ∧
    (s.pending = .write 32 0x08 v :: rest → step s = .next { s with pending := rest }) ∧
    (s.pending = .write 32 0x0C v :: rest → step s = .next { s with pending := rest, amount := v }) ∧
    (s.pending = .write 32 0x10 v :: rest → step s = .next { s with pending := rest, bmin := v }) ∧
    (s.pending = .write 32 0x14 v :: rest → step s = .next { s with pending := rest, bmax := v }) ∧
    (s.pending = .write 32 0x18 v :: rest → step s = .next { s with pending := rest, pxpos := v }) ∧
    (s.pending = .write 32 0x1C v :: rest → step s = .next { s with pending := rest, pxdata := v }) ∧
    (s.pending = .write 32 0x20 v :: rest → step s = .next { s with pending := rest })

/-- R118: a write to `STATUS` with bit 0 set clears the fault and nothing else; with no fault recorded it changes nothing, a
state with no fault having a zero record (the invariant). -/
def Obligations.StatusWriteReturnsFromFault : Prop :=
  ∀ (s : State) (v : Word) (rest : List HostAction),
    s.pending = .write 32 0x04 v :: rest → v.getLsbD 0 = true →
    step s = .next { s with pending := rest, fault := false, cause := 0, finfo := 0 } ∧
    (s.FaultRecordOk → s.fault = false → step s = .next { s with pending := rest })

/-- R27, R130, R131: the event "reset" gives every piece of the block's state its reset value, whatever the state was, and does
not change the parameter. That the host's own side is kept is the model's (log entry 3). -/
def Obligations.ResetEventGivesTheResetState : Prop :=
  ∀ (s : State) (rest : List HostAction), s.pending = .reset :: rest →
    ∃ t, step s = .next t ∧ (∀ n, t.slot n = none) ∧
      t.amount = 0 ∧ t.bmin = 0 ∧ t.bmax = 0 ∧ t.pxpos = 0 ∧ t.pxdata = 0 ∧
      t.fault = false ∧ t.cause = 0 ∧ t.finfo = 0 ∧
      t.capPixels = s.capPixels ∧ t.pending = rest ∧ t.answers = s.answers

/-- R131: a command followed by reset leaves what reset alone leaves, so a command abandoned by reset cannot be told from one
that was never written. The step after which the reset is taken is the model's reading (log entry 6). -/
def Obligations.ResetHidesTheCommandBeforeIt : Prop :=
  ∀ (s : State) (v : Word) (rest : List HostAction), s.Inv →
    ∃ t, Sys2Proof.core.run 2 { s with pending := .write 32 0x00 v :: .reset :: rest } = .next t ∧
      Sys2Proof.core.run 1 { s with pending := .reset :: rest } = .next t

/-- R27: the state after reset. That `VALID` reads zero is the spec's own inference from R23 and the free slots. -/
def Obligations.ResetStateHasTheListedValues : Prop :=
  (∀ n, State.reset.slot n = none) ∧
  State.reset.amount = 0x00000000 ∧ State.reset.bmin = 0x00000000 ∧ State.reset.bmax = 0x00000000 ∧
  State.reset.pxpos = 0x00000000 ∧ State.reset.pxdata = 0x00000000 ∧
  State.reset.fault = false ∧ State.reset.cause = 0 ∧ State.reset.finfo = 0x00000000 ∧
  regRead .valid State.reset = 0x00000000 ∧ regRead .cmd State.reset = 0x00000000

/-- R132: the first action after reset is served like any other, and with no host action the state does not change. -/
def Obligations.BlockIsReadyAfterResetAndIdleUnasked : Prop :=
  (∀ (a : HostAction) (rest : List HostAction), a.wellFormed = true →
    ∃ t, step { State.reset with pending := a :: rest } = .next t) ∧
  ∀ s : State, s.pending = [] → step s = .next s

/-! ### Invariants and rules of the whole machine -/

/-- The invariant holds after reset (R11, R12, R21, R22, R27). -/
def Obligations.ResetMeetsTheInvariant : Prop := State.reset.Inv

/-- R11, R12, R21, R22, R110, R112: from every state that meets the invariant, a step gives one that meets it: every valid slot
has ordered bounds, one sample for every coordinate and at most `CAP_PIXELS` of them; with no fault the record is zero; with a
fault the recorded cause is one the recorded word can raise. -/
def Obligations.EveryStepKeepsTheInvariant : Prop :=
  ∀ s t : State, s.Inv → step s = .next t → t.Inv

/-- R35, R36, R37, R49, R111: from a state that meets the invariant a step always answers a next state, unless the host makes an
access the spec does not define, which is refused; the model's own fault is never reached. -/
def Obligations.OnlyUndefinedAccessesStopTheMachine : Prop :=
  ∀ s : State, s.Inv →
    (∃ t, step s = .next t) ∨
    (∃ a rest r, s.pending = a :: rest ∧ a.wellFormed = false ∧ step s = .refused r)

/-- R113: a faulting `CMD` write changes nothing but `STATUS` and `FINFO`; it records the word as it was written and the code of
a cause of the command whose condition (R110) held, or that of `ILLEGAL` for a word that is no command. -/
def Obligations.FaultingCommandChangesOnlyTheRecord : Prop :=
  ∀ (s t : State) (v : Word) (rest : List HostAction),
    s.IssuesNext v rest → s.fault = false → step s = .next t → t.fault = true →
    t = { s with pending := rest, fault := true, cause := t.cause, finfo := v } ∧
      (∀ i, decode v = .instr i → ∃ c ∈ causesOf i, t.cause = c.code ∧ FaultCondition i c s) ∧
      ((∀ i, decode v ≠ .instr i) → t.cause = 1)

/-- R117, with the causes of R112 and the conditions of R110: of the conditions that hold, the one with the lowest code is
raised. -/
def Obligations.LowestCauseCodeIsRaised : Prop :=
  ∀ (i : Instr) (s : State) (c : Cause), c ∈ causesOf i → FaultCondition i c s →
    (∀ c' ∈ causesOf i, c'.code < c.code → ¬ FaultCondition i c' s) → Raises i c s

/-- R111, R112: a command none of whose fault conditions holds completes, and no flag changes. -/
def Obligations.CommandWithoutFaultConditionCompletes : Prop :=
  ∀ (i : Instr) (s : State), s.Inv → (∀ c ∈ causesOf i, ¬ FaultCondition i c s) →
    ∃ t, exec i s = .next t ∧ StatusKept s t

/-- R14: which command writes which operand register: `AMOUNT` and `PXPOS` none, `BMIN` and `BMAX` only GETB, `PXDATA` only
GETPX. -/
def Obligations.CommandsWriteOnlyTheirOperandRegisters : Prop :=
  ∀ (i : Instr) (s t : State), exec i s = .next t →
    t.amount = s.amount ∧ t.pxpos = s.pxpos ∧
    ((∀ rs, i ≠ .getb rs) → t.bmin = s.bmin ∧ t.bmax = s.bmax) ∧
    ((∀ rs, i ≠ .getpx rs) → t.pxdata = s.pxdata)

/-- R11: no step edits the bounds of a slot that stays valid. -/
def Obligations.BoundsNeverChangeWhileTheSlotIsValid : Prop :=
  ∀ (s t : State) (n : SlotNum) (b d : Buffer),
    step s = .next t → s.slot n = some b → t.slot n = some d → d.bounds = b.bounds

/-- R21: only a faulting command sets `FAULT`: a step after which it is newly set is a write to `CMD`, and the cause recorded is
not 0. -/
def Obligations.OnlyAFaultingCommandSetsFault : Prop :=
  ∀ s t : State, step s = .next t → s.fault = false → t.fault = true →
    ∃ v rest, s.IssuesNext v rest ∧ t.finfo = v ∧ t.cause ≠ 0

/-- R114: while `FAULT` is 1 nothing but reset changes a slot. -/
def Obligations.HaltedEngineKeepsEverySlot : Prop :=
  ∀ (s t : State) (a : HostAction) (rest : List HostAction),
    s.fault = true → s.pending = a :: rest → a ≠ .reset → step s = .next t → SlotsKept s t

/-- R10, R31: a write to `CMD` changes no slot but the one its `RD` field names. -/
def Obligations.CommandChangesOnlyItsDestinationSlot : Prop :=
  ∀ (s t : State) (v : Word) (rest : List HostAction) (n : SlotNum),
    s.IssuesNext v rest → step s = .next t → n.val ≠ v.toNat / 256 % 16 → t.slot n = s.slot n

/-- R13 (c): no two-slot command writes its source, whichever slots it names. -/
def Obligations.SourceSlotIsNeverWritten : Prop :=
  ∀ (rd rs : SlotNum) (i : Instr) (s t : State),
    i ∈ [Instr.copy rd rs, .contrast rd rs, .gray rd rs, .invert rd rs, .mblur rd rs] →
    exec i s = .next t → t.slot rs = s.slot rs

/-- R97: a slot that a step makes valid was made by ALLOC, or has the bounds of the slot it was made from. -/
def Obligations.OnlyAllocMakesNewBounds : Prop :=
  ∀ (s t : State) (n : SlotNum) (d : Buffer), step s = .next t → s.slot n = none → t.slot n = some d →
    ∃ v rest i, s.IssuesNext v rest ∧ decode v = .instr i ∧
      (i = .alloc n ∨ ∃ rs src, mustHold i = some rs ∧ mustBeFree i = some n ∧
        s.slot rs = some src ∧ d.bounds = src.bounds)

/-- R116: a two-slot command that names one slot twice faults, whatever the slot holds. -/
def Obligations.NoCommandRunsInPlace : Prop :=
  ∀ (n : SlotNum) (i : Instr) (s : State),
    i ∈ [Instr.copy n n, .contrast n n, .gray n n, .invert n n, .mblur n n] →
    (s.slot n = none → Raises i .slotInvalid s) ∧ (∀ b, s.slot n = some b → Raises i .slotOccupied s)

/-! ### The commands -/

/-- R96: ALLOC, its word, its tests in order on mathematical integers, and the zero-filled buffer it makes. -/
def Obligations.AllocMakesAZeroFilledBuffer : Prop :=
  ∀ (rd : SlotNum) (s : State) (minX minY maxX maxY : Int),
    minX = (s.bmin.extractLsb' 0 16).toInt → minY = (s.bmin.extractLsb' 16 16).toInt →
    maxX = (s.bmax.extractLsb' 0 16).toInt → maxY = (s.bmax.extractLsb' 16 16).toInt →
    encode (.alloc rd) = scriptWord 0x01 rd 0 ∧
    (∀ b, s.slot rd = some b → Raises (.alloc rd) .slotOccupied s) ∧
    (s.slot rd = none → maxX < minX ∨ maxY < minY → Raises (.alloc rd) .badBounds s) ∧
    (s.slot rd = none → minX ≤ maxX → minY ≤ maxY → (maxX - minX) * (maxY - minY) > (s.capPixels : Int) →
      Raises (.alloc rd) .capacity s) ∧
    (s.slot rd = none → minX ≤ maxX → minY ≤ maxY → (maxX - minX) * (maxY - minY) ≤ (s.capPixels : Int) →
      ∃ t d, exec (.alloc rd) s = .next t ∧ OnlySlotChanges rd s t ∧ t.slot rd = some d ∧ d.WF ∧
        d.bounds.minX.toInt = minX ∧ d.bounds.minY.toInt = minY ∧
        d.bounds.maxX.toInt = maxX ∧ d.bounds.maxY.toInt = maxY ∧
        ∀ x y, minX ≤ x → x < maxX → minY ≤ y → y < maxY → d.pxRead? x y = some ⟨0, 0, 0, 0⟩)

/-- R98: FREE. -/
def Obligations.FreeMakesTheSlotFree : Prop :=
  ∀ (rd : SlotNum) (s : State),
    encode (.free rd) = scriptWord 0x02 rd 0 ∧
    (s.slot rd = none → Raises (.free rd) .slotInvalid s) ∧
    (∀ b, s.slot rd = some b → ∃ t, exec (.free rd) s = .next t ∧ OnlySlotChanges rd s t ∧
      t.slot rd = none ∧ (regRead .valid t).getLsbD rd.val = false)

/-- R102: GETB writes the slot's bounds to `BMIN` and `BMAX` and nothing else. -/
def Obligations.GetbReadsTheBounds : Prop :=
  ∀ (rs : SlotNum) (s : State),
    encode (.getb rs) = scriptWord 0x03 0 rs ∧
    (s.slot rs = none → Raises (.getb rs) .slotInvalid s) ∧
    (∀ b, s.slot rs = some b → ∃ t, exec (.getb rs) s = .next t ∧
      t.bmin.extractLsb' 0 16 = b.bounds.minX ∧ t.bmin.extractLsb' 16 16 = b.bounds.minY ∧
      t.bmax.extractLsb' 0 16 = b.bounds.maxX ∧ t.bmax.extractLsb' 16 16 = b.bounds.maxY ∧
      SlotsKept s t ∧ t.amount = s.amount ∧ t.pxpos = s.pxpos ∧ t.pxdata = s.pxdata ∧
      StatusKept s t ∧ HostSideKept s t)

/-- R103: GETPX reads one sample, behind its bounds test; every access to an empty buffer is outside. The slot's buffer is
well formed (R11, R12), as the invariant says of every slot. -/
def Obligations.GetpxReadsOneSample : Prop :=
  ∀ (rs : SlotNum) (s : State) (x y : Int),
    x = (s.pxpos.extractLsb' 0 16).toInt → y = (s.pxpos.extractLsb' 16 16).toInt →
    encode (.getpx rs) = scriptWord 0x04 0 rs ∧
    (s.slot rs = none → Raises (.getpx rs) .slotInvalid s) ∧
    (∀ b, s.slot rs = some b → ¬ b.bounds.InBounds x y → Raises (.getpx rs) .oob s) ∧
    (∀ b, s.slot rs = some b → b.bounds.pixels = 0 → Raises (.getpx rs) .oob s) ∧
    (∀ b, s.slot rs = some b → b.WF → b.bounds.InBounds x y →
      ∃ t p, exec (.getpx rs) s = .next t ∧ b.pxRead? x y = some p ∧
        t.pxdata.extractLsb' 0 8 = p.r ∧ t.pxdata.extractLsb' 8 8 = p.g ∧
        t.pxdata.extractLsb' 16 8 = p.b ∧ t.pxdata.extractLsb' 24 8 = p.a ∧
        SlotsKept s t ∧ t.amount = s.amount ∧ t.bmin = s.bmin ∧ t.bmax = s.bmax ∧ t.pxpos = s.pxpos ∧
        StatusKept s t ∧ HostSideKept s t)

/-- R104: PUTPX replaces exactly one sample, behind its bounds test. -/
def Obligations.PutpxReplacesOneSample : Prop :=
  ∀ (rd : SlotNum) (s : State) (x y : Int),
    x = (s.pxpos.extractLsb' 0 16).toInt → y = (s.pxpos.extractLsb' 16 16).toInt →
    encode (.putpx rd) = scriptWord 0x05 rd 0 ∧
    (s.slot rd = none → Raises (.putpx rd) .slotInvalid s) ∧
    (∀ b, s.slot rd = some b → ¬ b.bounds.InBounds x y → Raises (.putpx rd) .oob s) ∧
    (∀ b, s.slot rd = some b → b.WF → b.bounds.InBounds x y →
      ∃ t d, exec (.putpx rd) s = .next t ∧ OnlySlotChanges rd s t ∧ t.slot rd = some d ∧ d.WF ∧
        d.bounds = b.bounds ∧
        d.pxRead? x y = some ⟨s.pxdata.extractLsb' 0 8, s.pxdata.extractLsb' 8 8,
          s.pxdata.extractLsb' 16 8, s.pxdata.extractLsb' 24 8⟩ ∧
        ∀ x' y', ¬ (x' = x ∧ y' = y) → d.pxRead? x' y' = b.pxRead? x' y')

/-- R100: COPY makes the destination equal to the source in bounds and in every channel of every sample. -/
def Obligations.CopyDuplicatesTheSource : Prop :=
  ∀ (rd rs : SlotNum) (s : State),
    encode (.copy rd rs) = scriptWord 0x10 rd rs ∧
    SourceThenDestination (.copy rd rs) rd rs s ∧
    (∀ src, s.slot rs = some src → src.WF → s.slot rd = none →
      ∃ t d, exec (.copy rd rs) s = .next t ∧ OnlySlotChanges rd s t ∧ t.slot rd = some d ∧
        SampleWise (fun p q => q = p) src d)

/-- From R71 and R72: CONTRAST by the rule's first formula, on exact rationals: centre, scale, re-centre, scale back, clamp; and the
integer form that the rule derives from it (log entry 9, DEDUCED). -/
def Obligations.ContrastScalesAboutTheMiddle : Prop :=
  ∀ (rd rs : SlotNum) (s : State) (con : Nat → Nat),
    (∀ v, con v = clampToByte ((((v : Rat) / 255 - 1 / 2) * ((s.amount.toNat : Rat) / 65536) + 1 / 2) * 255)) →
    encode (.contrast rd rs) = scriptWord 0x11 rd rs ∧
    (∀ v, v ≤ 255 → (con v : Int) =
      min 255 (max 0 (((2 * (v : Int) - 255) * (s.amount.toNat : Int) + 16711680) / 131072))) ∧
    SourceThenDestination (.contrast rd rs) rd rs s ∧
    (∀ src, s.slot rs = some src → s.slot rd = none → s.amount = 0 → Raises (.contrast rd rs) .badAmount s) ∧
    (∀ src, s.slot rs = some src → src.WF → s.slot rd = none → s.amount ≠ 0 →
      ∃ t d, exec (.contrast rd rs) s = .next t ∧ OnlySlotChanges rd s t ∧ t.slot rd = some d ∧
        SampleWise (fun p q => q.r.toNat = con p.r.toNat ∧ q.g.toNat = con p.g.toNat ∧
          q.b.toNat = con p.b.toNat ∧ q.a = p.a) src d)

/-- R76: GRAY. -/
def Obligations.GrayStoresTheLuminance : Prop :=
  ∀ (rd rs : SlotNum) (s : State),
    encode (.gray rd rs) = scriptWord 0x12 rd rs ∧
    SourceThenDestination (.gray rd rs) rd rs s ∧
    (∀ src, s.slot rs = some src → src.WF → s.slot rd = none →
      ∃ t d, exec (.gray rd rs) s = .next t ∧ OnlySlotChanges rd s t ∧ t.slot rd = some d ∧
        SampleWise (fun p q =>
          q.r.toNat = (2126 * p.r.toNat + 7152 * p.g.toNat + 722 * p.b.toNat) / 10000 ∧
          q.g = q.r ∧ q.b = q.r ∧ q.a = p.a) src d)

/-- R81: INVERT. -/
def Obligations.InvertSubtractsFrom255 : Prop :=
  ∀ (rd rs : SlotNum) (s : State),
    encode (.invert rd rs) = scriptWord 0x13 rd rs ∧
    SourceThenDestination (.invert rd rs) rd rs s ∧
    (∀ src, s.slot rs = some src → src.WF → s.slot rd = none →
      ∃ t d, exec (.invert rd rs) s = .next t ∧ OnlySlotChanges rd s t ∧ t.slot rd = some d ∧
        SampleWise (fun p q => q.r.toNat = 255 - p.r.toNat ∧ q.g.toNat = 255 - p.g.toNat ∧
          q.b.toNat = 255 - p.b.toNat ∧ q.a = p.a) src d)

/-- R86: MBLUR's destination is what the rule's pseudocode computes, coordinate by coordinate in raster order. -/
def Obligations.MblurIsTheRasterPseudocode : Prop :=
  ∀ (rd rs : SlotNum) (s : State),
    encode (.mblur rd rs) = scriptWord 0x14 rd rs ∧
    SourceThenDestination (.mblur rd rs) rd rs s ∧
    (∀ src, s.slot rs = some src → src.WF → s.slot rd = none →
      ∃ t d, exec (.mblur rd rs) s = .next t ∧ OnlySlotChanges rd s t ∧ t.slot rd = some d ∧ d.WF ∧
        d.bounds = src.bounds ∧ d = motionBlurRaster src)

/-- R70: the map over the sample table is the rule's pair of loops over `PxRead` and `PxWrite`. -/
def Obligations.PointwiseIsTheRasterPseudocode : Prop :=
  ∀ (f : Sample → Sample) (src : Buffer), src.WF → src.mapSamples f = pointwiseRaster f src

/-- From R93, R91 (g) and R90: a blurred row is the fold over increasing x of each of its R, G and B rows separately; the alpha
row is untouched. That this is the computation of R86 is the spec's own derivation (log entry 10, DEDUCED). -/
def Obligations.BlurredRowIsAFoldPerChannel : Prop :=
  ∀ cells : List Sample,
    (blurRow cells).map (·.r) = blurChannel (cells.map (·.r)) ∧
    (blurRow cells).map (·.g) = blurChannel (cells.map (·.g)) ∧
    (blurRow cells).map (·.b) = blurChannel (cells.map (·.b)) ∧
    (blurRow cells).map (·.a) = cells.map (·.a)

/-- R91 (b), (c), R90: MBLUR keeps the first column and every alpha, and darkens no channel. -/
def Obligations.MblurNeverDarkens : Prop :=
  ∀ (rd rs : SlotNum) (s : State) (src : Buffer), s.slot rs = some src → src.WF → s.slot rd = none →
    ∃ t d, exec (.mblur rd rs) s = .next t ∧ t.slot rd = some d ∧
      SampleWise (fun p q => p.r ≤ q.r ∧ p.g ≤ q.g ∧ p.b ≤ q.b ∧ q.a = p.a) src d ∧
      ∀ y, d.pxRead? src.bounds.minX.toInt y = src.pxRead? src.bounds.minX.toInt y

/-- R87: a buffer of width 0 or 1 is returned as an exact copy: every target is clipped. -/
def Obligations.MblurOfANarrowBufferIsACopy : Prop :=
  ∀ (rd rs : SlotNum) (s : State) (src : Buffer), s.slot rs = some src → src.WF → src.bounds.width ≤ 1 →
    s.slot rd = none → ∃ t, exec (.mblur rd rs) s = .next t ∧ t.slot rd = some src ∧ OnlySlotChanges rd s t

/-- R88, R91 (g): what MBLUR stores in a row depends on that row of the source alone. -/
def Obligations.MblurRowsAreIndependent : Prop :=
  ∀ (b c : Buffer) (y : Int), b.WF → c.WF → b.bounds = c.bounds →
    (∀ x, b.pxRead? x y = c.pxRead? x y) →
    ∀ x, b.motionBlur.pxRead? x y = c.motionBlur.pxRead? x y

/-! ### Sample arithmetic -/

/-- From R62: `clampToByte` saturates, truncates, equals the single expression, and is monotone. The single expression, and the
integer case that follows from it, are the spec's own derivation. -/
def Obligations.ClampToByteSaturatesAndTruncates : Prop :=
  (∀ q : Rat, (255 < q → clampToByte q = 255) ∧ (q < 0 → clampToByte q = 0) ∧
    (0 ≤ q → q ≤ 255 → (clampToByte q : Int) = q.floor)) ∧
  (∀ q : Rat, (clampToByte q : Int) = min 255 (max 0 q.floor)) ∧
  (∀ p q : Rat, p ≤ q → clampToByte p ≤ clampToByte q) ∧
  ∀ n : Int, (clampToByte (n : Rat) : Int) = min 255 (max 0 n)

/-- From R63 and R64: the byte GRAY stores is the clamped exact luminance, and no clamp is needed. The integer form is the spec's
own derivation in R64 (log entry 9, DEDUCED). -/
def Obligations.GrayByteIsTheClampedLuminance : Prop :=
  ∀ r g b : Byte,
    luminance r.toNat g.toNat b.toNat =
      ((2126 * r.toNat + 7152 * g.toNat + 722 * b.toNat : Nat) : Rat) / 10000 ∧
    0 ≤ luminance r.toNat g.toNat b.toNat ∧ luminance r.toNat g.toNat b.toNat ≤ 255 ∧
    (∀ v : Byte, luminance v.toNat v.toNat v.toNat = (v.toNat : Rat)) ∧
    (gray r g b).toNat = clampToByte (luminance r.toNat g.toNat b.toNat) ∧
    (gray r g b).toNat = (2126 * r.toNat + 7152 * g.toNat + 722 * b.toNat) / 10000

/-- From R65 and R66: the weighted add in exact rationals and its integer form agree; offsets of 52 and more change nothing and
no channel is darkened. The integer form is the spec's own derivation in R66 (log entry 9, DEDUCED). -/
def Obligations.WeightedAddIntegerForm : Prop :=
  ∀ (t k : Byte) (j : Nat), 1 ≤ j →
    (wadd t k j).toNat = clampToByte ((t.toNat : Rat) + (1 / 5) / (j : Rat) * (k.toNat : Rat)) ∧
    (wadd t k j).toNat = min 255 (t.toNat + k.toNat / (5 * j)) ∧
    (52 ≤ j → wadd t k j = t) ∧ (k = 0 → wadd t k j = t) ∧ (t = 255 → wadd t k j = 255) ∧
    t.toNat ≤ (wadd t k j).toNat

/-- From R71: the integer form of `con` is the exact one. The integer form is the spec's own derivation (log entry 9, DEDUCED). -/
def Obligations.ContrastIntegerForm : Prop :=
  ∀ (v : Byte) (amount : Word),
    ((con v amount).toNat : Int) =
        min 255 (max 0 (((2 * (v.toNat : Int) - 255) * (amount.toNat : Int) + 16711680) / 131072)) ∧
    (con v amount).toNat =
      clampToByte (((v.toNat : Rat) - 255 / 2) * ((amount.toNat : Rat) / 65536) + 255 / 2)

/-- R73: identity at 1.0, saturation from 255 on, 127 everywhere at the smallest amount, monotone, the pivot, alpha kept. -/
def Obligations.ContrastAmountProperties : Prop :=
  (∀ v : Byte, con v 0x00010000 = v) ∧
  (∀ (v : Byte) (amount : Word), 0x00FF0000 ≤ amount.toNat →
    con v amount = if v.toNat ≤ 127 then 0 else 255) ∧
  (∀ v : Byte, (con v 0x00000001).toNat = 127) ∧
  (∀ (v w : Byte) (amount : Word), v ≤ w → con v amount ≤ con w amount) ∧
  (∀ amount : Word, 0x00010000 ≤ amount.toNat → con 127 amount ≤ 127 ∧ 128 ≤ con 128 amount) ∧
  (∀ amount : Word, 0 < amount.toNat → amount.toNat < 0x00010000 → con 127 amount = 127 ∧ con 128 amount = 127) ∧
  ∀ (amount : Word) (p : Sample), (contrastSample amount p).a = p.a

/-- From R77, whose properties the spec derives from R76 and R64, on GRAY's sample function: grey samples are fixed, it is
idempotent, its result is grey, and the primaries give 54, 182 and 18. -/
def Obligations.GrayProperties : Prop :=
  (∀ v a : Byte, graySample ⟨v, v, v, a⟩ = ⟨v, v, v, a⟩) ∧
  (∀ p : Sample, graySample (graySample p) = graySample p) ∧
  (∀ p : Sample, (graySample p).r = (graySample p).g ∧ (graySample p).g = (graySample p).b) ∧
  ∀ a : Byte, (graySample ⟨255, 0, 0, a⟩).r = 54 ∧ (graySample ⟨0, 255, 0, a⟩).r = 182 ∧
    (graySample ⟨0, 0, 255, a⟩).r = 18

/-- From R82, which the spec derives from R81: INVERT of the result of INVERT gives a buffer equal to the original. -/
def Obligations.InvertTwiceIsTheOriginal : Prop :=
  ∀ (a m n : SlotNum) (s : State) (b : Buffer),
    s.slot a = some b → s.slot m = none → s.slot n = none → m ≠ n →
    ∃ t u, exec (.invert m a) s = .next t ∧ exec (.invert n m) t = .next u ∧
      u.slot n = some b ∧ u.slot a = some b

/-- R101: after COPY, a PUTPX to or a FREE of either slot leaves the other unchanged. -/
def Obligations.CopyIsIsolatedFromItsSource : Prop :=
  ∀ (rd rs : SlotNum) (s : State) (src : Buffer), s.slot rs = some src → s.slot rd = none →
    ∃ t, exec (.copy rd rs) s = .next t ∧ t.slot rs = some src ∧ t.slot rd = some src ∧
      ∀ (w : State) (u : State), w.slots = t.slots →
        (exec (.putpx rd) w = .next u ∨ exec (.free rd) w = .next u → u.slot rs = some src) ∧
        (exec (.putpx rs) w = .next u ∨ exec (.free rs) w = .next u → u.slot rd = some src)

/-! ### Frames -/

/-- The frame of the commands that write a slot as a whole (R70, R86, R96, R98, R100, R113): when exec answers a next state, no
operand register, no other slot and no sample of another slot has changed, and either the flags are as before, or a fault was
recorded and slot `rd` is as before too. -/
def Obligations.SlotWritingCommandsFrame : Prop :=
  ∀ (rd rs : SlotNum) (i : Instr) (s t : State),
    i ∈ [Instr.alloc rd, .free rd, .copy rd rs, .contrast rd rs, .gray rd rs, .invert rd rs, .mblur rd rs] →
    exec i s = .next t →
    OperandsKept s t ∧ HostSideKept s t ∧ (∀ n, n ≠ rd → t.slot n = s.slot n) ∧
    (∀ n x y, n ≠ rd → t.sample? n x y = s.sample? n x y) ∧
    (StatusKept s t ∨
      (t.fault = true ∧ (∃ c ∈ causesOf i, t.cause = c.code) ∧ t.finfo = encode i ∧ t.slot rd = s.slot rd))

/-- The frame of GETB and GETPX (R102, R103, R113): no slot and no sample changes; of the operand registers GETB may change
`BMIN` and `BMAX` only and GETPX `PXDATA` only; the flags are as before, or a fault was recorded and no operand register changed. -/
def Obligations.RegisterLoadingCommandsFrame : Prop :=
  ∀ (rs : SlotNum) (i : Instr) (s t : State), i ∈ [Instr.getb rs, .getpx rs] → exec i s = .next t →
    SlotsKept s t ∧ (∀ n x y, t.sample? n x y = s.sample? n x y) ∧ HostSideKept s t ∧
    t.amount = s.amount ∧ t.pxpos = s.pxpos ∧
    (i = .getb rs → t.pxdata = s.pxdata) ∧ (i = .getpx rs → t.bmin = s.bmin ∧ t.bmax = s.bmax) ∧
    (StatusKept s t ∨
      (t.fault = true ∧ (∃ c ∈ causesOf i, t.cause = c.code) ∧ t.finfo = encode i ∧ OperandsKept s t))

/-- The frame of PUTPX (R104, R113): the place stored to is `(rd, x, y)` with `x` and `y` the meaning's own reading of `PXPOS`;
every sample elsewhere reads as before, the slot's bounds and validity too; the flags are as before, or a fault was recorded and
no sample at all changed. -/
def Obligations.PutpxFrame : Prop :=
  ∀ (rd : SlotNum) (s t : State), exec (.putpx rd) s = .next t →
    OperandsKept s t ∧ HostSideKept s t ∧ (∀ n, n ≠ rd → t.slot n = s.slot n) ∧
    (t.slot rd).map Buffer.bounds = (s.slot rd).map Buffer.bounds ∧
    (∀ n x y, ¬ (n = rd ∧ x = s.posX ∧ y = s.posY) → t.sample? n x y = s.sample? n x y) ∧
    (StatusKept s t ∨
      (t.fault = true ∧ (∃ c ∈ causesOf (.putpx rd), t.cause = c.code) ∧ t.finfo = encode (.putpx rd) ∧ SlotsKept s t))

/-! ### Scripts and layout -/

/-- R54, R105: STOREPX then LOADPX at an in-bounds coordinate answers the sample stored, and changes no other sample. -/
def Obligations.StoredPixelIsLoadedBack : Prop :=
  ∀ (s : State) (n : SlotNum) (b : Buffer) (x y : Int) (p : Sample),
    s.Inv → s.fault = false → s.slot n = some b → b.bounds.InBounds x y →
    ∃ t, runScript (storePx n x y p ++ loadPx n x y) s = .next t ∧
      t.answers = wordOfSample p :: s.answers ∧ t.fault = false ∧ t.sample? n x y = some p ∧
      ∀ m x' y', ¬ (m = n ∧ x' = x ∧ y' = y) → t.sample? m x' y' = s.sample? m x' y'

/-- R32: the linear index of a sample is below the pixel count and increases in raster order. The clause that it is the sample's
place in the table read row after row is the model's choice of layout (log entry 7, DESIGN CHOICE): R32 leaves the layout open. -/
def Obligations.LinearIndexIsRasterOrder : Prop :=
  ∀ (b : Buffer) (x y : Int), b.WF → b.bounds.InBounds x y →
    b.bounds.linearIndex x y < b.bounds.pixels ∧
    b.rows.flatten[b.bounds.linearIndex x y]? = b.pxRead? x y ∧
    ∀ x' y', b.bounds.InBounds x' y' → (y < y' ∨ (y = y' ∧ x < x')) →
      b.bounds.linearIndex x y < b.bounds.linearIndex x' y'
end

