-- ==== Sys2Proof/Laws/Decode.lean ====
section
/-! SUPPORT. Command words and their fields as numbers: every later fact about the encoding is arithmetic over these. -/

namespace Sys2Proof

theorem commandWord_toNat (opc : BitVec 8) (rd rs : SlotNum) :
    (commandWord opc rd rs).toNat = opc.toNat + 256 * rd.val + 4096 * rs.val := by
  have h : (commandWord opc rd rs).toNat =
      (0#16 ++ BitVec.ofFin (w := 4) rs ++ BitVec.ofFin (w := 4) rd ++ opc : BitVec (16 + 4 + 4 + 8)).toNat := rfl
  rw [h]
  have ho := opc.isLt
  have hd : rd.val < 2 ^ 4 := rd.isLt
  simp only [BitVec.toNat_append, BitVec.toNat_ofNat, BitVec.toNat_ofFin, Nat.zero_mod, Nat.zero_shiftLeft, Nat.zero_or]
  rw [← Nat.shiftLeft_add_eq_or_of_lt hd, ← Nat.shiftLeft_add_eq_or_of_lt ho]
  omega

theorem opcField_toNat (v : Word) : (opcField v).toNat = v.toNat % 256 := by
  simp [opcField]

theorem rdField_val (v : Word) : (rdField v).val = v.toNat / 256 % 16 := by
  have : (rdField v).val = (v.extractLsb' 8 4).toNat := rfl
  rw [this, BitVec.extractLsb'_toNat, Nat.shiftRight_eq_div_pow]

theorem rsField_val (v : Word) : (rsField v).val = v.toNat / 4096 % 16 := by
  have : (rsField v).val = (v.extractLsb' 12 4).toNat := rfl
  rw [this, BitVec.extractLsb'_toNat, Nat.shiftRight_eq_div_pow]

theorem zeroField_toNat (v : Word) : (zeroField v).toNat = v.toNat / 65536 := by
  have := v.isLt
  rw [zeroField, BitVec.extractLsb'_toNat, Nat.shiftRight_eq_div_pow]
  omega

theorem opcField_commandWord (opc : BitVec 8) (rd rs : SlotNum) : opcField (commandWord opc rd rs) = opc := by
  apply BitVec.eq_of_toNat_eq
  have := opc.isLt
  rw [opcField_toNat, commandWord_toNat]; omega

theorem rdField_commandWord (opc : BitVec 8) (rd rs : SlotNum) : rdField (commandWord opc rd rs) = rd := by
  apply Fin.ext
  have := opc.isLt
  rw [rdField_val, commandWord_toNat]; omega

theorem rsField_commandWord (opc : BitVec 8) (rd rs : SlotNum) : rsField (commandWord opc rd rs) = rs := by
  apply Fin.ext
  have := opc.isLt
  rw [rsField_val, commandWord_toNat]; omega

theorem zeroField_commandWord (opc : BitVec 8) (rd rs : SlotNum) : zeroField (commandWord opc rd rs) = 0 := by
  apply BitVec.eq_of_toNat_eq
  have := opc.isLt
  rw [zeroField_toNat, commandWord_toNat]
  show _ = 0
  omega

end Sys2Proof
end

