-- ==== Sys2Proof/Laws/State.lean ====
section
/-! SUPPORT. What each named update of the state does to each field and to each slot. -/

namespace Sys2Proof.Machine

theorem slot_setSlot_same (s : State) (n : SlotNum) (b : Option Buffer) : (s.setSlot n b).slot n = b := by
  simp [State.slot, State.setSlot]

theorem slot_setSlot_other (s : State) {m n : SlotNum} (b : Option Buffer) (h : m ≠ n) :
    (s.setSlot n b).slot m = s.slot m := by
  have hv : n.val ≠ m.val := fun e => h (Fin.ext e.symm)
  simp [State.slot, State.setSlot, Vector.getElem_set_ne, hv]

@[simp] theorem slot_setSlot (s : State) (m n : SlotNum) (b : Option Buffer) :
    (s.setSlot n b).slot m = if m = n then b else s.slot m := by
  by_cases h : m = n
  · subst h; simp [slot_setSlot_same]
  · simp [h, slot_setSlot_other]

@[simp] theorem setSlot_amount (s : State) (n : SlotNum) (b : Option Buffer) : (s.setSlot n b).amount = s.amount := rfl
@[simp] theorem setSlot_bmin (s : State) (n : SlotNum) (b : Option Buffer) : (s.setSlot n b).bmin = s.bmin := rfl
@[simp] theorem setSlot_bmax (s : State) (n : SlotNum) (b : Option Buffer) : (s.setSlot n b).bmax = s.bmax := rfl
@[simp] theorem setSlot_pxpos (s : State) (n : SlotNum) (b : Option Buffer) : (s.setSlot n b).pxpos = s.pxpos := rfl
@[simp] theorem setSlot_pxdata (s : State) (n : SlotNum) (b : Option Buffer) : (s.setSlot n b).pxdata = s.pxdata := rfl
@[simp] theorem setSlot_fault (s : State) (n : SlotNum) (b : Option Buffer) : (s.setSlot n b).fault = s.fault := rfl
@[simp] theorem setSlot_cause (s : State) (n : SlotNum) (b : Option Buffer) : (s.setSlot n b).cause = s.cause := rfl
@[simp] theorem setSlot_finfo (s : State) (n : SlotNum) (b : Option Buffer) : (s.setSlot n b).finfo = s.finfo := rfl
@[simp] theorem setSlot_capPixels (s : State) (n : SlotNum) (b : Option Buffer) : (s.setSlot n b).capPixels = s.capPixels := rfl
@[simp] theorem setSlot_pending (s : State) (n : SlotNum) (b : Option Buffer) : (s.setSlot n b).pending = s.pending := rfl
@[simp] theorem setSlot_answers (s : State) (n : SlotNum) (b : Option Buffer) : (s.setSlot n b).answers = s.answers := rfl

@[simp] theorem raiseFault_slot (w : Word) (c : Cause) (s : State) (n : SlotNum) : (raiseFault w c s).slot n = s.slot n := rfl
@[simp] theorem raiseFault_amount (w : Word) (c : Cause) (s : State) : (raiseFault w c s).amount = s.amount := rfl
@[simp] theorem raiseFault_bmin (w : Word) (c : Cause) (s : State) : (raiseFault w c s).bmin = s.bmin := rfl
@[simp] theorem raiseFault_bmax (w : Word) (c : Cause) (s : State) : (raiseFault w c s).bmax = s.bmax := rfl
@[simp] theorem raiseFault_pxpos (w : Word) (c : Cause) (s : State) : (raiseFault w c s).pxpos = s.pxpos := rfl
@[simp] theorem raiseFault_pxdata (w : Word) (c : Cause) (s : State) : (raiseFault w c s).pxdata = s.pxdata := rfl
@[simp] theorem raiseFault_fault (w : Word) (c : Cause) (s : State) : (raiseFault w c s).fault = true := rfl
@[simp] theorem raiseFault_cause (w : Word) (c : Cause) (s : State) : (raiseFault w c s).cause = c.code := rfl
@[simp] theorem raiseFault_finfo (w : Word) (c : Cause) (s : State) : (raiseFault w c s).finfo = w := rfl
@[simp] theorem raiseFault_capPixels (w : Word) (c : Cause) (s : State) : (raiseFault w c s).capPixels = s.capPixels := rfl
@[simp] theorem raiseFault_pending (w : Word) (c : Cause) (s : State) : (raiseFault w c s).pending = s.pending := rfl
@[simp] theorem raiseFault_answers (w : Word) (c : Cause) (s : State) : (raiseFault w c s).answers = s.answers := rfl

@[simp] theorem clearFault_slot (s : State) (n : SlotNum) : (clearFault s).slot n = s.slot n := rfl
@[simp] theorem clearFault_amount (s : State) : (clearFault s).amount = s.amount := rfl
@[simp] theorem clearFault_bmin (s : State) : (clearFault s).bmin = s.bmin := rfl
@[simp] theorem clearFault_bmax (s : State) : (clearFault s).bmax = s.bmax := rfl
@[simp] theorem clearFault_pxpos (s : State) : (clearFault s).pxpos = s.pxpos := rfl
@[simp] theorem clearFault_pxdata (s : State) : (clearFault s).pxdata = s.pxdata := rfl
@[simp] theorem clearFault_fault (s : State) : (clearFault s).fault = false := rfl
@[simp] theorem clearFault_cause (s : State) : (clearFault s).cause = 0 := rfl
@[simp] theorem clearFault_finfo (s : State) : (clearFault s).finfo = 0 := rfl
@[simp] theorem clearFault_capPixels (s : State) : (clearFault s).capPixels = s.capPixels := rfl
@[simp] theorem clearFault_pending (s : State) : (clearFault s).pending = s.pending := rfl
@[simp] theorem clearFault_answers (s : State) : (clearFault s).answers = s.answers := rfl

@[simp] theorem resetEvent_slot (s : State) (n : SlotNum) : (resetEvent s).slot n = none := by
  simp [resetEvent, State.reset, State.slot]
@[simp] theorem resetEvent_fault (s : State) : (resetEvent s).fault = false := rfl
@[simp] theorem resetEvent_cause (s : State) : (resetEvent s).cause = 0 := rfl
@[simp] theorem resetEvent_finfo (s : State) : (resetEvent s).finfo = 0 := rfl
@[simp] theorem resetEvent_capPixels (s : State) : (resetEvent s).capPixels = s.capPixels := rfl
@[simp] theorem resetEvent_pending (s : State) : (resetEvent s).pending = s.pending := rfl
@[simp] theorem resetEvent_answers (s : State) : (resetEvent s).answers = s.answers := rfl

end Sys2Proof.Machine
end

