-- ==== Sys2Proof/Laws/Ops.lean ====
section
/-! SUPPORT. The laws of the shared operations: sample reads and writes, the shape every operation keeps, and what the
destination-making frame can answer. -/

namespace Sys2Proof.Machine

/-! ### Shape: every operation on a buffer keeps `Buffer.WF` -/

theorem newBuffer_wf {q : Bounds} (h : q.Ordered) : (newBuffer q).WF := by
  refine ⟨h, by simp [newBuffer], fun cells hc => ?_⟩
  have := (List.mem_replicate.1 hc).2
  simp [this, newBuffer]

theorem mapSamples_wf (f : Sample → Sample) {b : Buffer} (h : b.WF) : (b.mapSamples f).WF := by
  refine ⟨h.1, by simpa [Buffer.mapSamples] using h.2.1, fun cells hc => ?_⟩
  obtain ⟨old, ho, rfl⟩ := List.mem_map.1 hc
  simpa [Buffer.mapSamples] using h.2.2 old ho

theorem pxWrite_wf {b : Buffer} (h : b.WF) (x y : Int) (p : Sample) : (b.pxWrite x y p).WF := by
  unfold Buffer.pxWrite
  split
  · refine ⟨h.1, by simpa using h.2.1, fun cells hc => ?_⟩
    obtain ⟨i, hi, rfl⟩ := List.mem_iff_getElem.1 hc
    simp only [List.length_modify] at hi
    rw [List.getElem_modify]
    have hlen := h.2.2 _ (List.getElem_mem hi)
    split <;> simpa using hlen
  · exact h

@[simp] theorem smearAt_length (k : Sample) (i : Nat) (cells : List Sample) (j : Nat) :
    (smearAt k i cells j).length = cells.length := by
  unfold smearAt; split <;> simp

theorem foldl_length {α : Type} (f : List Sample → α → List Sample)
    (h : ∀ cells a, (f cells a).length = cells.length) (as : List α) (cells : List Sample) :
    (as.foldl f cells).length = cells.length := by
  induction as generalizing cells with
  | nil => rfl
  | cons a as ih => rw [List.foldl_cons, ih, h]

@[simp] theorem blurFrom_length (cells : List Sample) (i : Nat) : (blurFrom cells i).length = cells.length := by
  unfold blurFrom
  split
  · exact foldl_length _ (fun cells j => smearAt_length _ _ cells j) _ _
  · rfl

@[simp] theorem blurRow_length (cells : List Sample) : (blurRow cells).length = cells.length :=
  foldl_length _ blurFrom_length _ _

theorem motionBlur_wf {b : Buffer} (h : b.WF) : b.motionBlur.WF := by
  refine ⟨h.1, by simpa [Buffer.motionBlur] using h.2.1, fun cells hc => ?_⟩
  obtain ⟨old, ho, rfl⟩ := List.mem_map.1 hc
  simpa [Buffer.motionBlur] using h.2.2 old ho

/-! ### Bounds -/

@[simp] theorem newBuffer_bounds (q : Bounds) : (newBuffer q).bounds = q := rfl
@[simp] theorem mapSamples_bounds (f : Sample → Sample) (b : Buffer) : (b.mapSamples f).bounds = b.bounds := rfl
@[simp] theorem motionBlur_bounds (b : Buffer) : b.motionBlur.bounds = b.bounds := rfl
@[simp] theorem pxWrite_bounds (b : Buffer) (x y : Int) (p : Sample) : (b.pxWrite x y p).bounds = b.bounds := by
  unfold Buffer.pxWrite; split <;> rfl

theorem col_lt {q : Bounds} {x y : Int} (h : q.InBounds x y) : q.col x < q.width := by
  obtain ⟨⟨h1, h2⟩, -⟩ := h
  unfold Bounds.col Bounds.width; omega

theorem row_lt {q : Bounds} {x y : Int} (h : q.InBounds x y) : q.row y < q.height := by
  obtain ⟨-, h1, h2⟩ := h
  unfold Bounds.row Bounds.height; omega

theorem col_inj {q : Bounds} {x y x' y' : Int} (h : q.InBounds x y) (h' : q.InBounds x' y')
    (e : q.col x = q.col x') : x = x' := by
  obtain ⟨⟨h1, -⟩, -⟩ := h
  obtain ⟨⟨h2, -⟩, -⟩ := h'
  unfold Bounds.col at e; omega

theorem row_inj {q : Bounds} {x y x' y' : Int} (h : q.InBounds x y) (h' : q.InBounds x' y')
    (e : q.row y = q.row y') : y = y' := by
  obtain ⟨-, h1, -⟩ := h
  obtain ⟨-, h2, -⟩ := h'
  unfold Bounds.row at e; omega

/-! ### Reading samples -/

theorem pxRead?_outside {b : Buffer} {x y : Int} (h : ¬ b.bounds.InBounds x y) : b.pxRead? x y = none := by
  simp only [Buffer.pxRead?, if_neg h]

/-- An in-bounds coordinate of a well-formed buffer has its sample in the table. -/
theorem pxRead?_inside {b : Buffer} (wf : b.WF) {x y : Int} (h : b.bounds.InBounds x y) :
    ∃ (hr : b.bounds.row y < b.rows.length) (hc : b.bounds.col x < b.rows[b.bounds.row y].length),
      b.pxRead? x y = some b.rows[b.bounds.row y][b.bounds.col x] := by
  have hr : b.bounds.row y < b.rows.length := wf.2.1 ▸ row_lt h
  have hc : b.bounds.col x < b.rows[b.bounds.row y].length :=
    wf.2.2 _ (List.getElem_mem hr) ▸ col_lt h
  refine ⟨hr, hc, ?_⟩
  simp only [Buffer.pxRead?, if_pos h, List.getElem?_eq_getElem hr, List.getElem?_eq_getElem hc]

theorem exists_pxRead? {b : Buffer} (wf : b.WF) {x y : Int} (h : b.bounds.InBounds x y) :
    ∃ p, b.pxRead? x y = some p :=
  let ⟨_, _, e⟩ := pxRead?_inside wf h
  ⟨_, e⟩

theorem pxRead?_newBuffer {q : Bounds} {x y : Int} (h : q.InBounds x y) :
    (newBuffer q).pxRead? x y = some Sample.zero := by
  have hr := row_lt h
  have hc := col_lt h
  simp only [Buffer.pxRead?, newBuffer, if_pos h, List.getElem?_replicate, if_pos hr, if_pos hc]

theorem pxRead?_mapSamples (f : Sample → Sample) (b : Buffer) (x y : Int) :
    (b.mapSamples f).pxRead? x y = (b.pxRead? x y).map f := by
  simp only [Buffer.pxRead?, Buffer.mapSamples, List.getElem?_map]
  split
  · cases b.rows[b.bounds.row y]? <;> simp
  · rfl

/-- Read after write, at the coordinate written (R7, R104). -/
theorem pxRead?_pxWrite_same {b : Buffer} (wf : b.WF) {x y : Int} (h : b.bounds.InBounds x y) (p : Sample) :
    (b.pxWrite x y p).pxRead? x y = some p := by
  obtain ⟨hr, hc, -⟩ := pxRead?_inside wf h
  unfold Buffer.pxWrite Buffer.pxRead?
  simp [if_pos h, hr, hc]

/-- Read after write, anywhere else (R104: "every other sample"). -/
theorem pxRead?_pxWrite_other {b : Buffer} {x y x' y' : Int} (p : Sample) (h : ¬ (x' = x ∧ y' = y)) :
    (b.pxWrite x y p).pxRead? x' y' = b.pxRead? x' y' := by
  by_cases hin : b.bounds.InBounds x y
  · by_cases hin' : b.bounds.InBounds x' y'
    · unfold Buffer.pxWrite Buffer.pxRead?
      simp only [if_pos hin, if_pos hin', List.getElem?_modify]
      by_cases hy : b.bounds.row y = b.bounds.row y'
      · have hx : b.bounds.col x ≠ b.bounds.col x' := fun e =>
          h ⟨(col_inj hin hin' e).symm, (row_inj hin hin' hy).symm⟩
        cases hrow : b.rows[b.bounds.row y']? with
        | none => simp
        | some cells => simp [hy, List.getElem?_set_ne hx]
      · cases b.rows[b.bounds.row y']? <;> simp [hy]
    · rw [pxRead?_outside hin', pxRead?_outside (by rwa [pxWrite_bounds])]
  · simp only [Buffer.pxWrite, if_neg hin]

/-! ### The destination-making frame -/

/-- All that a two-slot command can answer (R70, R86): one of its two faults, or the destination made from the source. -/
theorem produce_cases (i : Instr) (rd rs : SlotNum) (make : Buffer → Buffer) (s : State) :
    (s.slot rs = none ∧ produce i rd rs make s = .next (raiseFault (encode i) .slotInvalid s)) ∨
    (∃ src b, s.slot rs = some src ∧ s.slot rd = some b ∧
      produce i rd rs make s = .next (raiseFault (encode i) .slotOccupied s)) ∨
    (∃ src, s.slot rs = some src ∧ s.slot rd = none ∧
      produce i rd rs make s = .next (s.setSlot rd (some (make src)))) := by
  cases hs : s.slot rs with
  | none => exact .inl ⟨rfl, by simp only [produce, hs, raiseIn]⟩
  | some src =>
    cases hd : s.slot rd with
    | some b => exact .inr (.inl ⟨src, b, rfl, rfl, by simp only [produce, hs, hd, raiseIn]⟩)
    | none => exact .inr (.inr ⟨src, rfl, rfl, by simp only [produce, hs, hd]⟩)

theorem produce_makes {i : Instr} {rd rs : SlotNum} {make : Buffer → Buffer} {s : State} {src : Buffer}
    (hs : s.slot rs = some src) (hd : s.slot rd = none) :
    produce i rd rs make s = .next (s.setSlot rd (some (make src))) := by
  simp only [produce, hs, hd]

/-- All that GETPX and PUTPX read at an in-bounds coordinate of a well-formed slot exists. -/
theorem pos_read {s : State} {b : Buffer} (wf : b.WF) (h : b.bounds.InBounds s.posX s.posY) :
    ∃ p, b.pxRead? s.posX s.posY = some p := exists_pxRead? wf h

end Sys2Proof.Machine
end

