-- ==== Sys2Proof/Laws/Exec.lean ====
section
/-! SUPPORT. One inversion lemma per command that is not the two-slot frame alone: everything it can answer. -/

namespace Sys2Proof.Machine

/-- All that ALLOC can answer (R96). -/
theorem execAlloc_cases (rd : SlotNum) (s : State) :
    (∃ b, s.slot rd = some b ∧ execAlloc rd s = .next (raiseFault (encode (.alloc rd)) .slotOccupied s)) ∨
    (s.slot rd = none ∧ ¬ s.boundsOperand.Ordered ∧
      execAlloc rd s = .next (raiseFault (encode (.alloc rd)) .badBounds s)) ∨
    (s.slot rd = none ∧ s.boundsOperand.Ordered ∧ s.capPixels < s.boundsOperand.pixels ∧
      execAlloc rd s = .next (raiseFault (encode (.alloc rd)) .capacity s)) ∨
    (s.slot rd = none ∧ s.boundsOperand.Ordered ∧ s.boundsOperand.pixels ≤ s.capPixels ∧
      execAlloc rd s = .next (s.setSlot rd (some (newBuffer s.boundsOperand)))) := by
  cases hs : s.slot rd with
  | some b => exact .inl ⟨b, rfl, by simp only [execAlloc, hs, raiseIn]⟩
  | none =>
    right
    by_cases ho : s.boundsOperand.Ordered
    · right
      obtain ⟨hx, hy⟩ := ho
      have hp : (s.boundsOperand.pixels : Int) =
          (s.boundsOperand.maxX.toInt - s.boundsOperand.minX.toInt) *
            (s.boundsOperand.maxY.toInt - s.boundsOperand.minY.toInt) := by
        rw [Bounds.pixels, Bounds.width, Bounds.height, Int.natCast_mul,
          Int.toNat_of_nonneg (by omega), Int.toNat_of_nonneg (by omega)]
      have hno : ¬ (s.boundsOperand.maxX.toInt < s.boundsOperand.minX.toInt ∨
          s.boundsOperand.maxY.toInt < s.boundsOperand.minY.toInt) := by omega
      by_cases hc : s.capPixels < s.boundsOperand.pixels
      · refine .inl ⟨rfl, ⟨hx, hy⟩, hc, ?_⟩
        simp only [execAlloc, hs, if_neg hno, ← hp, raiseIn]
        rw [if_pos (by omega)]
      · refine .inr ⟨rfl, ⟨hx, hy⟩, by omega, ?_⟩
        simp only [execAlloc, hs, if_neg hno, ← hp]
        rw [if_neg (by omega)]
    · refine .inl ⟨rfl, ho, ?_⟩
      have hbad : s.boundsOperand.maxX.toInt < s.boundsOperand.minX.toInt ∨
          s.boundsOperand.maxY.toInt < s.boundsOperand.minY.toInt := by
        simp only [Bounds.Ordered] at ho; omega
      simp only [execAlloc, hs, if_pos hbad, raiseIn]

/-- All that FREE can answer (R98). -/
theorem execFree_cases (rd : SlotNum) (s : State) :
    (s.slot rd = none ∧ execFree rd s = .next (raiseFault (encode (.free rd)) .slotInvalid s)) ∨
    (∃ b, s.slot rd = some b ∧ execFree rd s = .next (s.setSlot rd none)) := by
  cases hs : s.slot rd with
  | none => exact .inl ⟨rfl, by simp only [execFree, hs, raiseIn]⟩
  | some b => exact .inr ⟨b, rfl, by simp only [execFree, hs]⟩

/-- All that GETB can answer (R102). -/
theorem execGetb_cases (rs : SlotNum) (s : State) :
    (s.slot rs = none ∧ execGetb rs s = .next (raiseFault (encode (.getb rs)) .slotInvalid s)) ∨
    (∃ b, s.slot rs = some b ∧ execGetb rs s = .next { s with
      bmin := pairWord b.bounds.minY b.bounds.minX
      bmax := pairWord b.bounds.maxY b.bounds.maxX }) := by
  cases hs : s.slot rs with
  | none => exact .inl ⟨rfl, by simp only [execGetb, hs, raiseIn]⟩
  | some b => exact .inr ⟨b, rfl, by simp only [execGetb, hs]⟩

/-- All that GETPX can answer (R103); the last case is no case of a state that meets the invariant. -/
theorem execGetpx_cases (rs : SlotNum) (s : State) :
    (s.slot rs = none ∧ execGetpx rs s = .next (raiseFault (encode (.getpx rs)) .slotInvalid s)) ∨
    (∃ b, s.slot rs = some b ∧ ¬ b.bounds.InBounds s.posX s.posY ∧
      execGetpx rs s = .next (raiseFault (encode (.getpx rs)) .oob s)) ∨
    (∃ b p, s.slot rs = some b ∧ b.bounds.InBounds s.posX s.posY ∧ b.pxRead? s.posX s.posY = some p ∧
      execGetpx rs s = .next { s with pxdata := wordOfSample p }) ∨
    (∃ b, s.slot rs = some b ∧ b.bounds.InBounds s.posX s.posY ∧ b.pxRead? s.posX s.posY = none ∧
      execGetpx rs s = .fault .sampleMissing) := by
  cases hs : s.slot rs with
  | none => exact .inl ⟨rfl, by simp only [execGetpx, hs, raiseIn]⟩
  | some b =>
    right
    by_cases hin : b.bounds.InBounds s.posX s.posY
    · right
      cases hp : b.pxRead? s.posX s.posY with
      | some p => exact .inl ⟨b, p, rfl, hin, hp, by simp only [execGetpx, hs, if_pos hin, hp]⟩
      | none => exact .inr ⟨b, rfl, hin, hp, by simp only [execGetpx, hs, if_pos hin, hp]⟩
    · exact .inl ⟨b, rfl, hin, by simp only [execGetpx, hs, if_neg hin, raiseIn]⟩

/-- All that PUTPX can answer (R104); the last case is no case of a state that meets the invariant. -/
theorem execPutpx_cases (rd : SlotNum) (s : State) :
    (s.slot rd = none ∧ execPutpx rd s = .next (raiseFault (encode (.putpx rd)) .slotInvalid s)) ∨
    (∃ b, s.slot rd = some b ∧ ¬ b.bounds.InBounds s.posX s.posY ∧
      execPutpx rd s = .next (raiseFault (encode (.putpx rd)) .oob s)) ∨
    (∃ b p, s.slot rd = some b ∧ b.bounds.InBounds s.posX s.posY ∧ b.pxRead? s.posX s.posY = some p ∧
      execPutpx rd s =
        .next (s.setSlot rd (some (b.pxWrite s.posX s.posY (sampleOfWord s.pxdata))))) ∨
    (∃ b, s.slot rd = some b ∧ b.bounds.InBounds s.posX s.posY ∧ b.pxRead? s.posX s.posY = none ∧
      execPutpx rd s = .fault .sampleMissing) := by
  cases hs : s.slot rd with
  | none => exact .inl ⟨rfl, by simp only [execPutpx, hs, raiseIn]⟩
  | some b =>
    right
    by_cases hin : b.bounds.InBounds s.posX s.posY
    · right
      cases hp : b.pxRead? s.posX s.posY with
      | some p => exact .inl ⟨b, p, rfl, hin, hp, by simp only [execPutpx, hs, if_pos hin, hp]⟩
      | none => exact .inr ⟨b, rfl, hin, hp, by simp only [execPutpx, hs, if_pos hin, hp]⟩
    · exact .inl ⟨b, rfl, hin, by simp only [execPutpx, hs, if_neg hin, raiseIn]⟩

/-- All that CONTRAST can answer (R71). -/
theorem execContrast_cases (rd rs : SlotNum) (s : State) :
    (s.slot rs = none ∧ execContrast rd rs s = .next (raiseFault (encode (.contrast rd rs)) .slotInvalid s)) ∨
    (∃ src b, s.slot rs = some src ∧ s.slot rd = some b ∧
      execContrast rd rs s = .next (raiseFault (encode (.contrast rd rs)) .slotOccupied s)) ∨
    (∃ src, s.slot rs = some src ∧ s.slot rd = none ∧ s.amount = 0 ∧
      execContrast rd rs s = .next (raiseFault (encode (.contrast rd rs)) .badAmount s)) ∨
    (∃ src, s.slot rs = some src ∧ s.slot rd = none ∧ s.amount ≠ 0 ∧
      execContrast rd rs s =
        .next (s.setSlot rd (some (src.mapSamples (contrastSample s.amount))))) := by
  cases hs : s.slot rs with
  | none => exact .inl ⟨rfl, by simp only [execContrast, hs, raiseIn]⟩
  | some src =>
    right
    cases hd : s.slot rd with
    | some b => exact .inl ⟨src, b, rfl, rfl, by simp only [execContrast, hs, hd, raiseIn]⟩
    | none =>
      right
      by_cases ha : s.amount = 0
      · exact .inl ⟨src, rfl, rfl, ha, by simp only [execContrast, hs, hd, if_pos ha, raiseIn]⟩
      · exact .inr ⟨src, rfl, rfl, ha, by
          simp only [execContrast, hs, hd, if_neg ha, pointwise, produce]⟩

end Sys2Proof.Machine
end

