-- ==== Sys2Proof/Laws/PerInstr.lean ====
section
/-! SUPPORT. Per instruction: where the fields of its word stand. -/

namespace Sys2Proof.Laws.EncodedFields

/-- The word of a command has its opcode in 7:0 and zeros in 31:16 (R45). -/
def Statement (i : Instr) : Prop := opcField (encode i) = opcodeOf i ∧ zeroField (encode i) = 0

theorem commandWord_fields (opc : BitVec 8) (rd rs : SlotNum) :
    opcField (commandWord opc rd rs) = opc ∧ zeroField (commandWord opc rd rs) = 0 :=
  ⟨opcField_commandWord _ _ _, zeroField_commandWord _ _ _⟩

theorem alloc (rd : SlotNum) : Statement (.alloc rd) := commandWord_fields _ _ _
theorem free (rd : SlotNum) : Statement (.free rd) := commandWord_fields _ _ _
theorem getb (rs : SlotNum) : Statement (.getb rs) := commandWord_fields _ _ _
theorem getpx (rs : SlotNum) : Statement (.getpx rs) := commandWord_fields _ _ _
theorem putpx (rd : SlotNum) : Statement (.putpx rd) := commandWord_fields _ _ _
theorem copy (rd rs : SlotNum) : Statement (.copy rd rs) := commandWord_fields _ _ _
theorem contrast (rd rs : SlotNum) : Statement (.contrast rd rs) := commandWord_fields _ _ _
theorem gray (rd rs : SlotNum) : Statement (.gray rd rs) := commandWord_fields _ _ _
theorem invert (rd rs : SlotNum) : Statement (.invert rd rs) := commandWord_fields _ _ _
theorem mblur (rd rs : SlotNum) : Statement (.mblur rd rs) := commandWord_fields _ _ _

end Sys2Proof.Laws.EncodedFields
end

