-- ==== Sys2Proof/Laws/Step.lean ====
section
/-! SUPPORT. What one step does with the host's next action, location by location. -/

namespace Sys2Proof.Machine

@[simp] theorem ofOffset?_offset (r : Reg) : Reg.ofOffset? r.offset = some r := by cases r <;> rfl

@[simp] theorem accessDefect_offset (r : Reg) : accessDefect 32 r.offset = none := by cases r <;> decide

/-- A 32-bit access at a location's own offset reaches it (R34). -/
@[simp] theorem access_offset (r : Reg) (act : Reg → Result) : access 32 r.offset act = act r := by
  simp only [access, accessDefect_offset, ofOffset?_offset]

/-- An access with a defect is refused (R35, R39). -/
theorem access_defect {bits off : Nat} {d : AccessDefect} (h : accessDefect bits off = some d)
    (act : Reg → Result) : access bits off act = .refused (refusalOf d) := by
  simp only [access, h]

/-- An access with no defect is 32 bits wide and at the offset of one of the nine locations (R34). -/
theorem exists_reg_of_no_defect {bits off : Nat} (h : accessDefect bits off = none) :
    bits = 32 ∧ ∃ r : Reg, off = r.offset := by
  unfold accessDefect at h
  split at h; · cases h
  split at h; · cases h
  split at h; · cases h
  rename_i hb hm hr
  refine ⟨by omega, ?_⟩
  have : off = 0x00 ∨ off = 0x04 ∨ off = 0x08 ∨ off = 0x0C ∨ off = 0x10 ∨ off = 0x14 ∨ off = 0x18 ∨
      off = 0x1C ∨ off = 0x20 := by omega
  rcases this with rfl | rfl | rfl | rfl | rfl | rfl | rfl | rfl | rfl
  exacts [⟨.cmd, rfl⟩, ⟨.status, rfl⟩, ⟨.finfo, rfl⟩, ⟨.amount, rfl⟩, ⟨.bmin, rfl⟩, ⟨.bmax, rfl⟩,
    ⟨.pxpos, rfl⟩, ⟨.pxdata, rfl⟩, ⟨.valid, rfl⟩]

/-- An access has a defect exactly when it is not well formed (R35, R39). -/
theorem accessWellFormed_eq_false {bits off : Nat} {d : AccessDefect} (h : accessDefect bits off = some d) :
    accessWellFormed bits off = false := by
  unfold accessDefect at h
  unfold accessWellFormed
  split at h
  · simp_all
  split at h
  · simp_all
  split at h
  · simp_all
  · cases h

theorem step_idle {s : State} (h : s.pending = []) : step s = .next s := by
  simp only [step, stepHost, h]

theorem step_action {s : State} {a : HostAction} {rest : List HostAction} (h : s.pending = a :: rest) :
    step s = perform a { s with pending := rest } := by
  simp only [step, stepHost, h]

theorem step_read {s : State} {r : Reg} {rest : List HostAction} (h : s.pending = .read 32 r.offset :: rest) :
    step s = .next { s with pending := rest, answers := regRead r { s with pending := rest } :: s.answers } := by
  rw [step_action h]; simp only [perform, access_offset]

theorem step_write {s : State} {r : Reg} {v : Word} {rest : List HostAction}
    (h : s.pending = .write 32 r.offset v :: rest) : step s = regWrite r v { s with pending := rest } := by
  rw [step_action h]; simp only [perform, access_offset]

theorem step_reset {s : State} {rest : List HostAction} (h : s.pending = .reset :: rest) :
    step s = .next (resetEvent { s with pending := rest }) := by
  rw [step_action h]; rfl

/-- All that a step can be: idle, a refused access, a reset, a read of a location or a write to one (R36, R37, R130, R132). -/
theorem step_cases (s : State) :
    (s.pending = [] ∧ step s = .next s) ∨
    (∃ a rest d, s.pending = a :: rest ∧ a.wellFormed = false ∧ step s = .refused (refusalOf d)) ∨
    (∃ rest, s.pending = .reset :: rest ∧ step s = .next (resetEvent { s with pending := rest })) ∨
    (∃ (r : Reg) (rest : List HostAction), s.pending = .read 32 r.offset :: rest ∧
      step s = .next { s with pending := rest, answers := regRead r { s with pending := rest } :: s.answers }) ∨
    (∃ (r : Reg) (v : Word) (rest : List HostAction), s.pending = .write 32 r.offset v :: rest ∧
      step s = regWrite r v { s with pending := rest }) := by
  cases hp : s.pending with
  | nil => exact .inl ⟨rfl, step_idle hp⟩
  | cons a rest =>
    right
    cases a with
    | reset => exact .inr (.inl ⟨rest, rfl, step_reset hp⟩)
    | read bits off =>
      cases hd : accessDefect bits off with
      | some d =>
        refine .inl ⟨_, rest, d, rfl, accessWellFormed_eq_false hd, ?_⟩
        rw [step_action hp]; exact access_defect hd _
      | none =>
        obtain ⟨rfl, r, rfl⟩ := exists_reg_of_no_defect hd
        exact .inr (.inr (.inl ⟨r, rest, rfl, step_read hp⟩))
    | write bits off v =>
      cases hd : accessDefect bits off with
      | some d =>
        refine .inl ⟨_, rest, d, rfl, accessWellFormed_eq_false hd, ?_⟩
        rw [step_action hp]; exact access_defect hd _
      | none =>
        obtain ⟨rfl, r, rfl⟩ := exists_reg_of_no_defect hd
        exact .inr (.inr (.inr ⟨r, v, rest, rfl, step_write hp⟩))

end Sys2Proof.Machine
end

