-- ==== Sys2Proof/Tests/Slice0.lean ====
section
/-! SUPPORT. Tests with results from spec/95_test_vectors.md (worked examples of the rules), and for every statement with hypotheses
a concrete state and operands that meet them. -/

namespace Sys2Proof.Machine.Tests

/-! ### Small states -/

/-- The 2×1 image of the document's scenario (1.2). -/
def image : Buffer := ⟨⟨0, 0, 2, 1⟩, [[⟨255, 0, 0, 255⟩, ⟨0, 0, 0, 255⟩]]⟩

/-- The 4×1 row of vector 2.5 (f), with the bounds of program P3. -/
def row4 : Buffer :=
  ⟨⟨-2, 5, 2, 6⟩, [[⟨255, 255, 255, 255⟩, ⟨250, 10, 0, 7⟩, ⟨0, 0, 0, 0⟩, ⟨200, 100, 50, 25⟩]]⟩

/-- A valid empty buffer. -/
def emptyBuffer : Buffer := ⟨⟨3, 3, 3, 3⟩, []⟩

/-- Reset with `b` in slot 0. -/
def holding (b : Buffer) : State := State.reset.setSlot 0 (some b)

/-- A sample of slot `n` after a command. -/
def sampleAfter (i : Instr) (s : State) (n : SlotNum) (x y : Int) : Option Sample :=
  (nextOf (exec i s)).bind (fun t => t.sample? n x y)

/-- `STATUS` and `FINFO` after a step. -/
def recordAfter (s : State) : Option (Word × Word) :=
  (nextOf (step s)).map (fun t => (t.statusWord, t.finfo))

/-- A host about to write `v` to `CMD`. -/
def issuing (v : Word) (s : State) : State := { s with pending := [.write 32 0x00 v] }

/-! ### Well-formedness: each check refuses an ill-formed term -/

theorem test_fits_refuses_rs_in_format_d : commandWellFormed 0x00001001 = false := by decide
theorem test_fits_refuses_rd_in_format_s : commandWellFormed 0x00000103 = false := by decide
theorem test_fits_refuses_high_half : commandWellFormed 0x80000113 = false := by decide
theorem test_fits_refuses_reserved_opcode : commandWellFormed 0x00000006 = false := by decide
theorem test_fits_accepts_mblur : commandWellFormed 0x0000FF14 = true := by decide
theorem test_access_refuses_width : (HostAction.read 16 0x0C).wellFormed = false := by decide
theorem test_access_refuses_misaligned : (HostAction.write 32 0x02 0).wellFormed = false := by decide
theorem test_access_refuses_reserved : (HostAction.read 32 0x24).wellFormed = false := by decide
theorem test_access_accepts_last_location : (HostAction.read 32 0x20).wellFormed = true := by decide

/-! ### Decoding: words written out bit by bit from R45 (ZERO, RS, RD, OPC) -/

theorem test_decode_alloc : decode 0b0000000000000000_0000_1111_00000001#32 = .instr (.alloc 15) := by decide
theorem test_decode_free : decode 0b0000000000000000_0000_0011_00000010#32 = .instr (.free 3) := by decide
theorem test_decode_getb : decode 0b0000000000000000_0010_0000_00000011#32 = .instr (.getb 2) := by decide
theorem test_decode_getpx : decode 0b0000000000000000_0001_0000_00000100#32 = .instr (.getpx 1) := by decide
theorem test_decode_putpx : decode 0b0000000000000000_0000_0100_00000101#32 = .instr (.putpx 4) := by decide
theorem test_decode_copy : decode 0b0000000000000000_0000_0001_00010000#32 = .instr (.copy 1 0) := by decide
theorem test_decode_contrast : decode 0b0000000000000000_0000_0100_00010001#32 = .instr (.contrast 4 0) := by decide
theorem test_decode_gray : decode 0b0000000000000000_0000_0010_00010010#32 = .instr (.gray 2 0) := by decide
theorem test_decode_invert : decode 0b0000000000000000_0000_0001_00010011#32 = .instr (.invert 1 0) := by decide
theorem test_decode_mblur : decode 0b0000000000000000_0011_0101_00010100#32 = .instr (.mblur 5 3) := by decide
theorem test_decode_zero_word : decode 0x00000000 = .illegal .opcode := by decide
theorem test_decode_ones_word : decode 0xFFFFFFFF = .illegal .zeroField := by decide
theorem test_decodeTableWord : decodeTableWord 32 0x00003514 = some (.mblur 5 3) := by decide

/-! ### Sample arithmetic (1.1, 2.1, 2.2) -/

theorem test_clamp_boundary :
    clampToByte (-5) = 0 ∧ clampToByte 260 = 255 ∧ clampToByte (1289 / 10) = 128 := by decide +kernel
theorem test_gray_primaries : gray 255 0 0 = 54 ∧ gray 0 255 0 = 182 ∧ gray 0 0 255 = 18 := by decide
theorem test_wadd_edges : wadd 203 255 1 = 254 ∧ wadd 250 255 1 = 255 ∧ wadd 0 255 51 = 1 ∧ wadd 0 255 52 = 0 := by
  decide
theorem test_con_extremes : conNumerator 0 0xFFFFFFFF = -1095199948545 ∧ con 0 0xFFFFFFFF = 0 ∧
    conNumerator 255 0xFFFFFFFF = 1095233371905 ∧ con 255 0xFFFFFFFF = 255 := by decide

/-! ### The commands (2.2 to 2.6, P2) -/

theorem test_alloc_negative_origin :
    sampleAfter (.alloc 0) { State.reset with bmin := 0xFFFFFFFF, bmax := 0x00000001 } 0 (-1) (-1)
      = some ⟨0, 0, 0, 0⟩ := by decide
theorem test_alloc_over_capacity :
    recordAfter (issuing 0x00000201 { State.reset with bmax := 0x01000101 }) = some (0x51, 0x201) := by decide
theorem test_free_of_a_free_slot : recordAfter (issuing 0x00000502 State.reset) = some (0x21, 0x502) := by decide
theorem test_free_clears_valid : (nextOf (exec (.free 0) (holding image))).map State.validWord = some 0 := by decide
theorem test_getb_bounds :
    (nextOf (exec (.getb 0) (holding row4))).map (fun t => (t.bmin, t.bmax)) = some (0x0005FFFE, 0x00060002) := by
  decide
theorem test_getpx_second_sample :
    (nextOf (exec (.getpx 0) { holding image with pxpos := 0x00000001 })).map State.pxdata = some 0xFF000000 := by
  decide
theorem test_getpx_outside :
    recordAfter (issuing 0x00000004 { holding image with pxpos := 0x00000002 }) = some (0x61, 0x4) := by decide
theorem test_putpx_packing :
    sampleAfter (.putpx 0) { holding image with pxdata := 0x04030201 } 0 0 0 = some ⟨1, 2, 3, 4⟩ := by decide
theorem test_putpx_outside :
    recordAfter (issuing 0x00000005 { holding image with pxpos := 0xFFFF0000 }) = some (0x61, 0x5) := by decide
theorem test_copy_keeps_alpha : sampleAfter (.copy 4 0) (holding row4) 4 (-1) 5 = some ⟨250, 10, 0, 7⟩ := by decide
theorem test_contrast_at_two :
    sampleAfter (.contrast 1 0)
      { holding ⟨⟨0, 0, 1, 1⟩, [[⟨100, 128, 200, 77⟩]]⟩ with amount := 0x00020000 } 1 0 0
      = some ⟨72, 128, 255, 77⟩ := by decide
theorem test_contrast_zero_amount : recordAfter (issuing 0x00000111 (holding image)) = some (0x71, 0x111) := by decide
theorem test_gray_scenario : sampleAfter (.gray 2 0) (holding image) 2 0 0 = some ⟨54, 54, 54, 255⟩ := by decide
theorem test_invert_scenario : sampleAfter (.invert 1 0) (holding image) 1 0 0 = some ⟨0, 255, 255, 255⟩ := by decide
theorem test_invert_in_place : recordAfter (issuing 0x00000013 (holding image)) = some (0x31, 0x13) := by decide
theorem test_mblur_trace :
    blurRow [⟨255, 255, 255, 255⟩, ⟨250, 10, 0, 7⟩, ⟨0, 0, 0, 0⟩, ⟨200, 100, 50, 25⟩] =
      [⟨255, 255, 255, 255⟩, ⟨255, 61, 51, 7⟩, ⟨76, 37, 35, 0⟩, ⟨255, 130, 79, 25⟩] := by decide +kernel
theorem test_mblur_slot : sampleAfter (.mblur 3 0) (holding row4) 3 1 5 = some ⟨255, 130, 79, 25⟩ := by decide +kernel

/-! ### The window (2.8) and the first instruction after reset -/

theorem test_illegal_word : recordAfter (issuing 0x00010013 State.reset) = some (0x11, 0x10013) := by decide
theorem test_status_clear :
    recordAfter { raiseFault 0x113 .slotInvalid State.reset with pending := [.write 32 0x04 0xFFFFFFFF] }
      = some (0, 0) := by decide
theorem test_status_write_without_bit0 :
    recordAfter { raiseFault 0x113 .slotInvalid State.reset with pending := [.write 32 0x04 0xFFFFFFFE] }
      = some (0x21, 0x113) := by decide
theorem test_read_valid :
    (nextOf (step { holding image with pending := [.read 32 0x20] })).map State.answers = some [1] := by decide
theorem test_placed_word_runs_next :
    (nextOf (step (State.reset.withFetchWord 32 0x00000F01))).map (fun t => (t.slot 15).isSome) = some true := by
  decide

theorem test_command_text : commandText (.mblur 5 3) = "MBLUR b5, b3" := by decide +kernel
theorem test_script_line_word :
    (ScriptLine.command (.copy 4 0)).action = .write 32 0x00 0x00000410 := by decide

/-! ### Witnesses: a state and operands that meet each statement's hypotheses -/

/-- Slot 0 holds the image, `AMOUNT` is 2.0, `PXPOS` is (1, 0), and the host has one `CMD` write and one read to go. -/
def ready : State :=
  { holding image with amount := 0x00020000, pxpos := 0x00000001, pending := [.write 32 0x00 0x00000113, .read 32 0x04] }

/-- A recorded fault, and a host about to write `CMD`. -/
def halted : State := { raiseFault 0x00000502 .slotInvalid ready with pending := [.write 32 0x00 0x00000001] }

theorem ready_inv : ready.Inv := by decide
theorem halted_inv : halted.Inv := by decide
theorem image_wf : image.WF := by decide
theorem row4_wf : row4.WF := by decide

theorem witness_DecodedWordIsTheEncoding : decode 0x00003514 = .instr (.mblur 5 3) := by decide
theorem witness_DecodeAgreesWithMatchAndMask : (⟨"MBLUR", .ds, 0x00000014⟩ : Row) ∈ opcodeRows := by decide
theorem witness_IllegalWordsRaiseIllegal :
    (issuing 0x00001105 ready).IssuesNext 0x00001105 [] ∧ ready.fault = false ∧ IllegalWord 0x00001105 := by decide
theorem witness_IllegalWordsRaiseIllegal_opcodes :
    IllegalWord 0x00000000 ∧ IllegalWord 0x00000006 ∧ IllegalWord 0x0000000F ∧ IllegalWord 0x00000015 :=
  ⟨by decide, by decide, by decide, by decide⟩
theorem witness_IllegalWordsRaiseIllegal_fields : IllegalWord 0x00010013 ∧ IllegalWord 0x00000103 :=
  ⟨by decide, by decide⟩
theorem witness_IllegalWordsRaiseIllegal_legal : ¬ IllegalWord 0x00000014 ∧ ¬ IllegalWord 0x00000F05 :=
  ⟨by decide, by decide⟩
theorem witness_StepRunsTheDecodedCommand :
    ready.IssuesNext 0x00000113 [.read 32 0x04] ∧ ready.fault = false ∧ decode 0x00000113 = .instr (.invert 1 0) := by
  decide
theorem witness_RegisterReadsAnswerAndChangeNothing (r : Reg) :
    ({ ready with pending := [.read 32 r.offset] } : State).pending = .read 32 r.offset :: [] := rfl
theorem witness_RegisterWritesHaveTheirEffect (r : Reg) :
    ({ ready with pending := [.write 32 r.offset 1] } : State).pending = .write 32 r.offset 1 :: [] := rfl
theorem witness_UndefinedAccessesAreRefused :
    ({ ready with pending := [.read 16 0x0C] } : State).pending = .read 16 0x0C :: [] ∧ (16 ≠ 32) ∧ (0x22 % 4 ≠ 0) ∧
      (0x24 ≤ 0x24) ∧ (0x20 % 4 = 0 ∧ 0x20 < 0x24) := by decide
theorem witness_CommandsAreDroppedWhileFaulted : halted.fault = true ∧ halted.IssuesNext 0x00000001 [] := by decide
theorem witness_StatusWriteReturnsFromFault :
    ({ ready with pending := [.write 32 0x04 1] } : State).pending = .write 32 0x04 1 :: [] ∧
      (1 : Word).getLsbD 0 = true ∧ ready.FaultRecordOk ∧ ready.fault = false := by decide
theorem witness_ResetEventGivesTheResetState :
    ({ halted with pending := [.reset] } : State).pending = .reset :: [] := rfl
theorem witness_ResetHidesTheCommandBeforeIt : ready.Inv := ready_inv
theorem witness_BlockIsReadyAfterResetAndIdleUnasked :
    (HostAction.write 32 0x00 0x00000014).wellFormed = true ∧ State.reset.pending = [] := by decide
theorem witness_EveryStepKeepsTheInvariant : ready.Inv ∧ (nextOf (step ready)).isSome = true :=
  ⟨ready_inv, by decide⟩
theorem witness_OnlyUndefinedAccessesStopTheMachine : halted.Inv := halted_inv
theorem witness_FaultingCommandChangesOnlyTheRecord :
    (issuing 0x00000502 ready).IssuesNext 0x00000502 [] ∧ ready.fault = false ∧
      (nextOf (step (issuing 0x00000502 ready))).map State.fault = some true := by decide
theorem witness_LowestCauseCodeIsRaised :
    Cause.badAmount ∈ causesOf (.contrast 1 0) ∧ FaultCondition (.contrast 1 0) .badAmount (holding image) ∧
      ∀ c ∈ causesOf (.contrast 1 0), c.code < Cause.code .badAmount →
        ¬ FaultCondition (.contrast 1 0) c (holding image) := by
  refine ⟨by decide, rfl, fun c hc hlt => ?_⟩
  have h0 : (holding image).slot 0 = some image := by decide
  have h1 : (holding image).slot 1 = none := by decide
  cases c <;> simp_all [causesOf, FaultCondition, mustHold, mustBeFree]
theorem witness_CommandWithoutFaultConditionCompletes :
    ready.Inv ∧ ∀ c ∈ causesOf (.contrast 1 0), ¬ FaultCondition (.contrast 1 0) c ready := by
  refine ⟨ready_inv, fun c hc => ?_⟩
  have h0 : ready.slot 0 = some image := by decide
  have h1 : ready.slot 1 = none := by decide
  have ha : ready.amount ≠ 0 := by decide
  cases c <;> simp_all [causesOf, FaultCondition, mustHold, mustBeFree]
theorem witness_CommandsWriteOnlyTheirOperandRegisters : (nextOf (exec (.getpx 0) ready)).isSome = true := by decide
theorem witness_BoundsNeverChangeWhileTheSlotIsValid :
    ready.slot 0 = some image ∧ ((nextOf (step ready)).bind (fun t => t.slot 0)) = some image := by decide
theorem witness_OnlyAFaultingCommandSetsFault :
    ready.fault = false ∧ (nextOf (step (issuing 0x00000502 ready))).map State.fault = some true := by decide
theorem witness_HaltedEngineKeepsEverySlot :
    halted.fault = true ∧ halted.pending = .write 32 0x00 0x00000001 :: [] ∧
      HostAction.write 32 0x00 0x00000001 ≠ .reset ∧ (nextOf (step halted)).isSome = true := by decide
theorem witness_CommandChangesOnlyItsDestinationSlot :
    ready.IssuesNext 0x00000113 [.read 32 0x04] ∧ (nextOf (step ready)).isSome = true ∧
      (2 : SlotNum).val ≠ (0x00000113 : Word).toNat / 256 % 16 := by decide
theorem witness_SourceSlotIsNeverWritten :
    Instr.mblur 1 0 ∈ [Instr.copy 1 0, .contrast 1 0, .gray 1 0, .invert 1 0, .mblur 1 0] ∧
      (nextOf (exec (.mblur 1 0) ready)).isSome = true := by decide
theorem witness_OnlyAllocMakesNewBounds :
    ready.slot 1 = none ∧ ((nextOf (step ready)).bind (fun t => t.slot 1)).isSome = true := by decide
theorem witness_NoCommandRunsInPlace :
    Instr.gray 3 3 ∈ [Instr.copy 3 3, .contrast 3 3, .gray 3 3, .invert 3 3, .mblur 3 3] ∧
      ready.slot 3 = none ∧ ready.slot 0 = some image := by decide
theorem witness_AllocMakesAZeroFilledBuffer_occupied : ready.slot 0 = some image := by decide
theorem witness_AllocMakesAZeroFilledBuffer_bad_bounds :
    ready.slot 1 = none ∧ ((0x0004FFFF : Word).extractLsb' 0 16).toInt = -1 ∧
      ((0x0004FFFF : Word).extractLsb' 16 16).toInt = 4 := by decide
theorem witness_AllocMakesAZeroFilledBuffer_capacity :
    ready.slot 1 = none ∧ ((0x01000101 : Word).extractLsb' 0 16).toInt = 257 ∧
      ((0x01000101 : Word).extractLsb' 16 16).toInt = 256 ∧ (257 - 0) * (256 - 0) > (ready.capPixels : Int) := by decide
theorem witness_AllocMakesAZeroFilledBuffer_at_capacity :
    ready.slot 1 = none ∧ ((0x01000100 : Word).extractLsb' 0 16).toInt = 256 ∧
      ((0x01000100 : Word).extractLsb' 16 16).toInt = 256 ∧ (256 - 0) * (256 - 0) ≤ (ready.capPixels : Int) := by decide
theorem witness_FreeMakesTheSlotFree : ready.slot 1 = none ∧ ready.slot 0 = some image := by decide
theorem witness_GetbReadsTheBounds : ready.slot 1 = none ∧ ready.slot 0 = some image := by decide
theorem witness_GetpxReadsOneSample :
    (1 : Int) = (ready.pxpos.extractLsb' 0 16).toInt ∧ (0 : Int) = (ready.pxpos.extractLsb' 16 16).toInt ∧
      ready.slot 1 = none ∧ ready.slot 0 = some image ∧ image.WF ∧ image.bounds.InBounds 1 0 := by decide
theorem witness_GetpxReadsOneSample_outside :
    (holding emptyBuffer).slot 0 = some emptyBuffer ∧ emptyBuffer.bounds.pixels = 0 ∧
      ¬ emptyBuffer.bounds.InBounds 3 3 ∧ ¬ image.bounds.InBounds 2 0 ∧ ¬ image.bounds.InBounds (-1) 0 := by decide
theorem witness_PutpxReplacesOneSample :
    (1 : Int) = (ready.pxpos.extractLsb' 0 16).toInt ∧ (0 : Int) = (ready.pxpos.extractLsb' 16 16).toInt ∧
      ready.slot 1 = none ∧ ready.slot 0 = some image ∧ image.WF ∧ image.bounds.InBounds 1 0 ∧
      ¬ image.bounds.InBounds 0 1 := by decide
theorem witness_CopyDuplicatesTheSource : ready.slot 0 = some image ∧ image.WF ∧ ready.slot 1 = none := by decide
theorem witness_ContrastScalesAboutTheMiddle :
    (∃ con : Nat → Nat, ∀ v, con v =
      clampToByte ((((v : Rat) / 255 - 1 / 2) * ((ready.amount.toNat : Rat) / 65536) + 1 / 2) * 255)) ∧
      ready.slot 0 = some image ∧ image.WF ∧ ready.slot 1 = none ∧ ready.amount ≠ 0 ∧ State.reset.amount = 0 :=
  ⟨⟨_, fun _ => rfl⟩, by decide⟩
theorem witness_GrayStoresTheLuminance : ready.slot 0 = some image ∧ image.WF ∧ ready.slot 1 = none := by decide
theorem witness_InvertSubtractsFrom255 : ready.slot 0 = some image ∧ image.WF ∧ ready.slot 1 = none := by decide
theorem witness_MblurIsTheRasterPseudocode :
    (holding row4).slot 0 = some row4 ∧ row4.WF ∧ (holding row4).slot 1 = none := by decide
theorem witness_PointwiseIsTheRasterPseudocode : row4.WF := row4_wf
theorem witness_MblurNeverDarkens :
    (holding row4).slot 0 = some row4 ∧ row4.WF ∧ (holding row4).slot 1 = none := by decide
theorem witness_MblurOfANarrowBufferIsACopy :
    (holding ⟨⟨0, 0, 1, 1⟩, [[⟨9, 8, 7, 6⟩]]⟩).slot 0 = some ⟨⟨0, 0, 1, 1⟩, [[⟨9, 8, 7, 6⟩]]⟩ ∧
      (⟨⟨0, 0, 1, 1⟩, [[⟨9, 8, 7, 6⟩]]⟩ : Buffer).WF ∧ (⟨0, 0, 1, 1⟩ : Bounds).width ≤ 1 ∧
      (holding ⟨⟨0, 0, 1, 1⟩, [[⟨9, 8, 7, 6⟩]]⟩).slot 1 = none := by decide
theorem witness_MblurRowsAreIndependent :
    row4.WF ∧ row4.bounds = row4.bounds ∧ ∀ x, row4.pxRead? x 5 = row4.pxRead? x 5 := ⟨row4_wf, rfl, fun _ => rfl⟩
theorem witness_ClampToByteSaturatesAndTruncates :
    (255 : Rat) < 256 ∧ (-1 : Rat) < 0 ∧ (0 : Rat) ≤ 255 ∧ (255 : Rat) ≤ 255 := by norm_num
theorem witness_WeightedAddIntegerForm : (1 : Nat) ≤ 52 ∧ (52 : Nat) ≤ 52 := by decide
theorem witness_ContrastAmountProperties :
    0x00FF0000 ≤ (0x00FF0000 : Word).toNat ∧ 0x00010000 ≤ (0x00010000 : Word).toNat ∧
      0 < (0x00000001 : Word).toNat ∧ (0x0000FFFF : Word).toNat < 0x00010000 ∧ (127 : Byte) ≤ 128 := by decide
theorem witness_InvertTwiceIsTheOriginal :
    ready.slot 0 = some image ∧ ready.slot 1 = none ∧ ready.slot 2 = none ∧ (1 : SlotNum) ≠ 2 := by decide
theorem witness_CopyIsIsolatedFromItsSource :
    ready.slot 0 = some image ∧ ready.slot 1 = none ∧
      ((nextOf (exec (.copy 1 0) ready)).bind (fun t => nextOf (exec (.putpx 1) t))).isSome = true := by decide
theorem witness_SlotWritingCommandsFrame :
    Instr.free 0 ∈ [Instr.alloc 0, .free 0, .copy 0 1, .contrast 0 1, .gray 0 1, .invert 0 1, .mblur 0 1] ∧
      (nextOf (exec (.free 0) ready)).isSome = true := by decide
theorem witness_RegisterLoadingCommandsFrame :
    Instr.getpx 0 ∈ [Instr.getb 0, .getpx 0] ∧ (nextOf (exec (.getpx 0) ready)).isSome = true := by decide
theorem witness_PutpxFrame : (nextOf (exec (.putpx 0) ready)).map State.fault = some false := by decide
theorem witness_StoredPixelIsLoadedBack :
    ready.Inv ∧ ready.fault = false ∧ ready.slot 0 = some image ∧ image.bounds.InBounds 1 0 :=
  ⟨ready_inv, by decide⟩
theorem witness_LinearIndexIsRasterOrder :
    row4.WF ∧ row4.bounds.InBounds (-2) 5 ∧ row4.bounds.InBounds 1 5 ∧ ((5 : Int) = 5 ∧ (-2 : Int) < 1) := by decide

end Sys2Proof.Machine.Tests
end

section
/-! PROOFS. What the decoder reads from a word, and that a command has one word (R45, R47, R49). -/

namespace Sys2Proof

/-- The slot in the `RD` field of a command's word; zero where its format has none (R46, R47). -/
def rdOperand : Instr → SlotNum
  | .alloc rd | .free rd | .putpx rd => rd
  | .getb _ | .getpx _ => 0
  | .copy rd _ | .contrast rd _ | .gray rd _ | .invert rd _ | .mblur rd _ => rd

/-- The slot in the `RS` field of a command's word; zero where its format has none (R46, R47). -/
def rsOperand : Instr → SlotNum
  | .alloc _ | .free _ | .putpx _ => 0
  | .getb rs | .getpx rs => rs
  | .copy _ rs | .contrast _ rs | .gray _ rs | .invert _ rs | .mblur _ rs => rs

theorem encode_eq_commandWord (i : Instr) :
    encode i = commandWord (opcodeOf i) (rdOperand i) (rsOperand i) := by
  cases i <;> rfl

theorem formatD_eq_instr {v : Word} {make : SlotNum → Instr} {i : Instr} :
    formatD v make = .instr i ↔ rsField v = 0 ∧ make (rdField v) = i := by
  unfold formatD; split <;> simp_all

theorem formatS_eq_instr {v : Word} {make : SlotNum → Instr} {i : Instr} :
    formatS v make = .instr i ↔ rdField v = 0 ∧ make (rsField v) = i := by
  unfold formatS; split <;> simp_all

theorem formatDS_eq_instr {v : Word} {make : SlotNum → SlotNum → Instr} {i : Instr} :
    formatDS v make = .instr i ↔ make (rdField v) (rsField v) = i := by
  simp [formatDS]

/-- A word that decodes holds the command's opcode and slots in its fields, and nothing else (R45, R47, R49). -/
theorem fields_of_decode {v : Word} {i : Instr} (h : decode v = .instr i) :
    zeroField v = 0 ∧ opcField v = opcodeOf i ∧ rdField v = rdOperand i ∧ rsField v = rsOperand i := by
  unfold decode at h
  split at h
  · cases h
  next hz =>
    refine ⟨not_not.1 hz, ?_⟩
    split at h
    iterate 2
      next hopc =>
        obtain ⟨hrs, rfl⟩ := formatD_eq_instr.1 h
        exact ⟨BitVec.eq_of_toNat_eq hopc, rfl, hrs⟩
    iterate 2
      next hopc =>
        obtain ⟨hrd, rfl⟩ := formatS_eq_instr.1 h
        exact ⟨BitVec.eq_of_toNat_eq hopc, hrd, rfl⟩
    next hopc =>
      obtain ⟨hrs, rfl⟩ := formatD_eq_instr.1 h
      exact ⟨BitVec.eq_of_toNat_eq hopc, rfl, hrs⟩
    iterate 5
      next hopc =>
        obtain rfl := formatDS_eq_instr.1 h
        exact ⟨BitVec.eq_of_toNat_eq hopc, rfl, rfl⟩
    · cases h

theorem rdField_of_decode {v : Word} {i : Instr} (h : decode v = .instr i) : rdField v = rdOperand i :=
  let ⟨_, _, hrd, _⟩ := fields_of_decode h
  hrd

/-- A word whose bits 31:16 are zero is put together again from its other three fields (R45). -/
theorem commandWord_of_fields {v : Word} (h : zeroField v = 0) :
    commandWord (opcField v) (rdField v) (rsField v) = v := by
  apply BitVec.eq_of_toNat_eq
  have hz : v.toNat / 65536 = 0 := by rw [← zeroField_toNat, h]; rfl
  rw [commandWord_toNat, opcField_toNat, rdField_val, rsField_val]
  omega

theorem encode_of_decode {v : Word} {i : Instr} (h : decode v = .instr i) : encode i = v := by
  obtain ⟨hz, hopc, hrd, hrs⟩ := fields_of_decode h
  rw [encode_eq_commandWord, ← hopc, ← hrd, ← hrs, commandWord_of_fields hz]

end Sys2Proof
end

section
/-! PROOFS. Once for every command: all that `exec` can answer, and then all that `execute` and a step can. -/

namespace Sys2Proof.Machine

/-- The two-slot commands with the buffer each makes of its source, behind its own tests (R71, R76, R81, R86, R100). -/
inductive Makes (s : State) : Instr → SlotNum → SlotNum → (Buffer → Buffer) → Prop
  | copy (rd rs : SlotNum) : Makes s (.copy rd rs) rd rs (Buffer.mapSamples fun p => p)
  | contrast (rd rs : SlotNum) (ha : s.amount ≠ 0) :
      Makes s (.contrast rd rs) rd rs (Buffer.mapSamples (contrastSample s.amount))
  | gray (rd rs : SlotNum) : Makes s (.gray rd rs) rd rs (Buffer.mapSamples graySample)
  | invert (rd rs : SlotNum) : Makes s (.invert rd rs) rd rs (Buffer.mapSamples invertSample)
  | mblur (rd rs : SlotNum) : Makes s (.mblur rd rs) rd rs Buffer.motionBlur

/-- What a command that completes writes to a slot: the slot and its new content (R70, R86, R96, R98, R104). -/
inductive Writes (s : State) : Instr → SlotNum → Option Buffer → Prop
  | alloc {rd : SlotNum} (hd : s.slot rd = none) (ho : s.boundsOperand.Ordered)
      (hc : s.boundsOperand.pixels ≤ s.capPixels) : Writes s (.alloc rd) rd (some (newBuffer s.boundsOperand))
  | free {rd : SlotNum} {b : Buffer} (hd : s.slot rd = some b) : Writes s (.free rd) rd none
  | putpx {rd : SlotNum} {b : Buffer} (hd : s.slot rd = some b) (hin : b.bounds.InBounds s.posX s.posY) :
      Writes s (.putpx rd) rd (some (b.pxWrite s.posX s.posY (sampleOfWord s.pxdata)))
  | made {i : Instr} {rd rs : SlotNum} {make : Buffer → Buffer} {src : Buffer} (hm : Makes s i rd rs make)
      (hs : s.slot rs = some src) (hd : s.slot rd = none) : Writes s i rd (some (make src))

/-- All that a command can answer: a fault of its own whose condition holds, one slot written, the registers GETB or GETPX
loads, or the model's own stop where a slot's table has a hole (R96 to R104, R112). -/
inductive Effect (s : State) (i : Instr) : Result → Prop
  | raises {c : Cause} (hc : c ∈ causesOf i) (hf : FaultCondition i c s) :
      Effect s i (.next (raiseFault (encode i) c s))
  | writes {rd : SlotNum} {b : Option Buffer} (hw : Writes s i rd b) : Effect s i (.next (s.setSlot rd b))
  | loadsBounds {rs : SlotNum} {b : Buffer} (hi : i = .getb rs) (hs : s.slot rs = some b) :
      Effect s i (.next { s with
        bmin := pairWord b.bounds.minY b.bounds.minX
        bmax := pairWord b.bounds.maxY b.bounds.maxX })
  | loadsSample {rs : SlotNum} {b : Buffer} {p : Sample} (hi : i = .getpx rs) (hs : s.slot rs = some b)
      (hp : b.pxRead? s.posX s.posY = some p) : Effect s i (.next { s with pxdata := wordOfSample p })
  | stuck {n : SlotNum} {b : Buffer} (hn : mustHold i = some n) (hs : s.slot n = some b)
      (hin : b.bounds.InBounds s.posX s.posY) (hp : b.pxRead? s.posX s.posY = none) :
      Effect s i (.fault .sampleMissing)

/-! ### The two slot faults -/

theorem slotInvalid_mem_causesOf {i : Instr} {n : SlotNum} (h : mustHold i = some n) : .slotInvalid ∈ causesOf i := by
  cases i <;> simp_all [mustHold, causesOf]

theorem slotOccupied_mem_causesOf {i : Instr} {n : SlotNum} (h : mustBeFree i = some n) :
    .slotOccupied ∈ causesOf i := by
  cases i <;> simp_all [mustBeFree, causesOf]

/-- R115: the slot a command reads is `FREE`. -/
theorem Effect.invalid {s : State} {i : Instr} {n : SlotNum} (h : mustHold i = some n) (hs : s.slot n = none) :
    Effect s i (.next (raiseFault (encode i) .slotInvalid s)) :=
  .raises (slotInvalid_mem_causesOf h) ⟨n, h, hs⟩

/-- R116: the slot a command creates is occupied. -/
theorem Effect.occupied {s : State} {i : Instr} {n : SlotNum} {b : Buffer} (h : mustBeFree i = some n)
    (hs : s.slot n = some b) : Effect s i (.next (raiseFault (encode i) .slotOccupied s)) :=
  .raises (slotOccupied_mem_causesOf h) ⟨n, b, h, hs⟩

/-! ### The two-slot commands -/

theorem Makes.mustHold_eq {s : State} {i : Instr} {rd rs : SlotNum} {make : Buffer → Buffer}
    (h : Makes s i rd rs make) : mustHold i = some rs := by cases h <;> rfl

theorem Makes.mustBeFree_eq {s : State} {i : Instr} {rd rs : SlotNum} {make : Buffer → Buffer}
    (h : Makes s i rd rs make) : mustBeFree i = some rd := by cases h <;> rfl

theorem Makes.rdOperand_eq {s : State} {i : Instr} {rd rs : SlotNum} {make : Buffer → Buffer}
    (h : Makes s i rd rs make) : rdOperand i = rd := by cases h <;> rfl

theorem Makes.bounds_eq {s : State} {i : Instr} {rd rs : SlotNum} {make : Buffer → Buffer}
    (h : Makes s i rd rs make) (b : Buffer) : (make b).bounds = b.bounds := by cases h <;> rfl

theorem Makes.wf {s : State} {i : Instr} {rd rs : SlotNum} {make : Buffer → Buffer}
    (h : Makes s i rd rs make) {b : Buffer} (wf : b.WF) : (make b).WF := by
  cases h with
  | mblur => exact motionBlur_wf wf
  | _ => exact mapSamples_wf _ wf

/-- A command whose meaning is the destination-making frame has only the effects listed. -/
theorem Makes.effect {s : State} {i : Instr} {rd rs : SlotNum} {make : Buffer → Buffer}
    (h : Makes s i rd rs make) : Effect s i (produce i rd rs make s) := by
  obtain ⟨hs, e⟩ | ⟨src, b, hs, hd, e⟩ | ⟨src, hs, hd, e⟩ := produce_cases i rd rs make s <;> rw [e]
  · exact .invalid h.mustHold_eq hs
  · exact .occupied h.mustBeFree_eq hd
  · exact .writes (.made h hs hd)

/-! ### The other commands -/

/-- The pixel count of ordered bounds is R96's product on mathematical integers. -/
theorem pixels_of_ordered {q : Bounds} (h : q.Ordered) :
    (q.pixels : Int) = (q.maxX.toInt - q.minX.toInt) * (q.maxY.toInt - q.minY.toInt) := by
  obtain ⟨hx, hy⟩ := h
  rw [Bounds.pixels, Bounds.width, Bounds.height, Int.natCast_mul, Int.toNat_of_nonneg (by omega),
    Int.toNat_of_nonneg (by omega)]

theorem execAlloc_effect (rd : SlotNum) (s : State) : Effect s (.alloc rd) (execAlloc rd s) := by
  obtain ⟨b, hd, e⟩ | ⟨-, ho, e⟩ | ⟨-, ho, hc, e⟩ | ⟨hd, ho, hc, e⟩ := execAlloc_cases rd s <;> rw [e]
  · exact .occupied rfl hd
  · refine .raises (c := .badBounds) (by simp [causesOf]) ?_
    simp only [Bounds.Ordered, not_and_or, not_le] at ho
    exact ho
  · refine .raises (c := .capacity) (by simp [causesOf]) ?_
    have hp : (s.capPixels : Int) < (s.boundsOperand.pixels : Int) := by exact_mod_cast hc
    rwa [pixels_of_ordered ho] at hp
  · exact .writes (.alloc hd ho hc)

theorem execFree_effect (rd : SlotNum) (s : State) : Effect s (.free rd) (execFree rd s) := by
  obtain ⟨hd, e⟩ | ⟨b, hd, e⟩ := execFree_cases rd s <;> rw [e]
  · exact .invalid rfl hd
  · exact .writes (.free hd)

theorem execGetb_effect (rs : SlotNum) (s : State) : Effect s (.getb rs) (execGetb rs s) := by
  obtain ⟨hs, e⟩ | ⟨b, hs, e⟩ := execGetb_cases rs s <;> rw [e]
  · exact .invalid rfl hs
  · exact .loadsBounds rfl hs

theorem execGetpx_effect (rs : SlotNum) (s : State) : Effect s (.getpx rs) (execGetpx rs s) := by
  obtain ⟨hs, e⟩ | ⟨b, hs, hout, e⟩ | ⟨b, p, hs, -, hp, e⟩ | ⟨b, hs, hin, hp, e⟩ := execGetpx_cases rs s <;> rw [e]
  · exact .invalid rfl hs
  · exact .raises (.tail _ (.head _)) ⟨rs, b, rfl, hs, hout⟩
  · exact .loadsSample rfl hs hp
  · exact .stuck rfl hs hin hp

theorem execPutpx_effect (rd : SlotNum) (s : State) : Effect s (.putpx rd) (execPutpx rd s) := by
  obtain ⟨hd, e⟩ | ⟨b, hd, hout, e⟩ | ⟨b, p, hd, hin, -, e⟩ | ⟨b, hd, hin, hp, e⟩ := execPutpx_cases rd s <;> rw [e]
  · exact .invalid rfl hd
  · exact .raises (.tail _ (.head _)) ⟨rd, b, rfl, hd, hout⟩
  · exact .writes (.putpx hd hin)
  · exact .stuck rfl hd hin hp

theorem execContrast_effect (rd rs : SlotNum) (s : State) : Effect s (.contrast rd rs) (execContrast rd rs s) := by
  obtain ⟨hs, e⟩ | ⟨src, b, hs, hd, e⟩ | ⟨src, hs, hd, ha, e⟩ | ⟨src, hs, hd, ha, e⟩ := execContrast_cases rd rs s <;>
    rw [e]
  · exact .invalid rfl hs
  · exact .occupied rfl hd
  · exact .raises (.tail _ (.tail _ (.head _))) ha
  · exact .writes (.made (.contrast rd rs ha) hs hd)

/-- Every answer of `exec` is one of the effects. -/
theorem exec_effect (i : Instr) (s : State) : Effect s i (exec i s) := by
  cases i with
  | alloc rd => exact execAlloc_effect rd s
  | free rd => exact execFree_effect rd s
  | getb rs => exact execGetb_effect rs s
  | getpx rs => exact execGetpx_effect rs s
  | putpx rd => exact execPutpx_effect rd s
  | copy rd rs => exact (Makes.copy rd rs).effect
  | contrast rd rs => exact execContrast_effect rd rs s
  | gray rd rs => exact (Makes.gray rd rs).effect
  | invert rd rs => exact (Makes.invert rd rs).effect
  | mblur rd rs => exact (Makes.mblur rd rs).effect

end Sys2Proof.Machine
end

section
/-! PROOFS. What a slot holds after a command writes it, and all that `execute` and a step can do. -/

namespace Sys2Proof.Machine

/-! ### The slot written -/

/-- The slot a command writes is the one its `RD` field names (R46). -/
theorem Writes.slot_eq {s : State} {i : Instr} {n : SlotNum} {b : Option Buffer} (h : Writes s i n b) :
    n = rdOperand i := by
  cases h with
  | made hm => exact hm.rdOperand_eq.symm
  | _ => rfl

/-- A command writes only well-formed buffers within the capacity (R11, R12, R96). -/
theorem Writes.ok {s : State} {i : Instr} {n : SlotNum} {d : Buffer} (h : Writes s i n (some d)) (ok : s.SlotsOk) :
    d.WF ∧ d.bounds.pixels ≤ s.capPixels := by
  cases h with
  | alloc _ ho hc => exact ⟨newBuffer_wf ho, hc⟩
  | putpx hd _ =>
    obtain ⟨wf, hc⟩ := ok _ _ hd
    exact ⟨pxWrite_wf wf _ _ _, by rwa [pxWrite_bounds]⟩
  | made hm hs _ =>
    obtain ⟨wf, hc⟩ := ok _ _ hs
    exact ⟨hm.wf wf, by rwa [hm.bounds_eq]⟩

/-- A valid slot that a command writes keeps its bounds, if it stays valid (R11): only PUTPX writes one. -/
theorem Writes.bounds_eq {s : State} {i : Instr} {n : SlotNum} {b d : Buffer} (h : Writes s i n (some d))
    (hb : s.slot n = some b) : d.bounds = b.bounds := by
  cases h with
  | putpx hd _ => rw [pxWrite_bounds, Option.some.inj (hd.symm.trans hb)]
  | alloc hd | made _ _ hd => cases hd.symm.trans hb

/-- No command writes a slot it needs valid where it needs another slot free (R13 (c)). -/
theorem Writes.ne_source {s : State} {i : Instr} {n rd rs : SlotNum} {b : Option Buffer} (h : Writes s i n b)
    (hold : mustHold i = some rs) (free : mustBeFree i = some rd) : rs ≠ n := by
  cases h with
  | alloc => cases hold
  | free | putpx => cases free
  | made hm hs hd =>
    rintro rfl
    obtain rfl := Option.some.inj (hm.mustHold_eq.symm.trans hold)
    cases hs.symm.trans hd

/-! ### Execute -/

theorem causeFits_illegal {v : Word} {why : Reject} (h : decode v = .illegal why) :
    causeFits v (Cause.code .illegal) = true := by
  simp only [causeFits, h, beq_self_eq_true]

theorem causeFits_command {v : Word} {i : Instr} {c : Cause} (h : decode v = .instr i) (hc : c ∈ causesOf i) :
    causeFits v c.code = true := by
  simp only [causeFits, h, List.any_eq_true, beq_iff_eq]
  exact ⟨c, hc, rfl⟩

theorem Cause.code_ne_zero (c : Cause) : c.code ≠ 0 := by cases c <;> decide

/-- All that `execute` does where it answers a next state: a fault with the word as written and a cause that fits it, one slot
written by the command in the word, or operand registers loaded (R49, R51, R113). -/
theorem execute_next_cases {v : Word} {s t : State} (h : execute v s = .next t) :
    (∃ c, causeFits v c.code = true ∧ t = raiseFault v c s) ∨
    (∃ i n b, decode v = .instr i ∧ Writes s i n b ∧ t = s.setSlot n b) ∨
    (∃ lo hi data, t = { s with bmin := lo, bmax := hi, pxdata := data }) := by
  cases hv : decode v with
  | illegal why =>
    simp only [execute, hv] at h
    cases h
    exact .inl ⟨.illegal, causeFits_illegal hv, rfl⟩
  | instr i =>
    have e := exec_effect i s
    simp only [execute, hv] at h
    rw [h] at e
    cases e with
    | raises hc hf => exact .inl ⟨_, causeFits_command hv hc, by rw [encode_of_decode hv]⟩
    | writes hw => exact .inr (.inl ⟨i, _, _, rfl, hw, rfl⟩)
    | loadsBounds => exact .inr (.inr ⟨_, _, s.pxdata, rfl⟩)
    | loadsSample => exact .inr (.inr ⟨s.bmin, s.bmax, _, rfl⟩)

/-! ### The step -/

/-- What a step does that neither runs a command nor resets: no slot changes, and the fault record is as before or cleared
(R36, R37, R118). -/
structure Quiet (s t : State) : Prop where
  slots : SlotsKept s t
  cap : t.capPixels = s.capPixels
  record : StatusKept s t ∨ (t.fault = false ∧ t.cause = 0 ∧ t.finfo = 0)

/-- All that a register write does where it answers a next state (R37, R114). -/
theorem regWrite_next_cases {r : Reg} {v : Word} {s t : State} (h : regWrite r v s = .next t) :
    Quiet s t ∨ (r = .cmd ∧ s.fault = false ∧ execute v s = .next t) := by
  cases r with
  | cmd =>
    simp only [regWrite] at h
    split at h
    · cases h; exact .inl ⟨fun _ => rfl, rfl, .inl ⟨rfl, rfl, rfl⟩⟩
    next hf => exact .inr ⟨rfl, Bool.eq_false_of_not_eq_true hf, h⟩
  | status =>
    cases h
    left
    split
    · exact ⟨fun _ => rfl, rfl, .inr ⟨rfl, rfl, rfl⟩⟩
    · exact ⟨fun _ => rfl, rfl, .inl ⟨rfl, rfl, rfl⟩⟩
  | _ => cases h; exact .inl ⟨fun _ => rfl, rfl, .inl ⟨rfl, rfl, rfl⟩⟩

/-- All that a step does where it answers a next state: a reset, a command run by a `CMD` write, or nothing to slots and
nothing to the fault record but clearing it (R41). -/
theorem step_next_cases {s t : State} (h : step s = .next t) :
    (∃ rest, s.pending = .reset :: rest ∧ t = resetEvent { s with pending := rest }) ∨
    (∃ v rest, s.IssuesNext v rest ∧ s.fault = false ∧ execute v { s with pending := rest } = .next t) ∨
    Quiet s t := by
  obtain ⟨-, e⟩ | ⟨a, rest, d, -, -, e⟩ | ⟨rest, hp, e⟩ | ⟨r, rest, -, e⟩ | ⟨r, v, rest, hp, e⟩ :=
    step_cases s <;> rw [e] at h
  · cases h; exact .inr (.inr ⟨fun _ => rfl, rfl, .inl ⟨rfl, rfl, rfl⟩⟩)
  · cases h
  · cases h; exact .inl ⟨rest, hp, rfl⟩
  · cases h; exact .inr (.inr ⟨fun _ => rfl, rfl, .inl ⟨rfl, rfl, rfl⟩⟩)
  · obtain ⟨hslots, hcap, hrec⟩ | ⟨rfl, hf, hx⟩ := regWrite_next_cases h
    · exact .inr (.inr ⟨hslots, hcap, hrec⟩)
    · exact .inr (.inl ⟨v, rest, hp, hf, hx⟩)

end Sys2Proof.Machine
end

section
/-! PROOFS. The invariant of the block (R11, R12, R21, R22): it holds at reset and every step keeps it. -/

namespace Sys2Proof.Machine

theorem SlotsKept.slotsOk {s t : State} (h : SlotsKept s t) (hc : t.capPixels = s.capPixels) (ok : s.SlotsOk) :
    t.SlotsOk := by
  intro n b hb
  rw [hc]
  exact ok n b (h n ▸ hb)

theorem StatusKept.recordOk {s t : State} (h : StatusKept s t) (ok : s.FaultRecordOk) : t.FaultRecordOk := by
  obtain ⟨hf, hc, hi⟩ := h
  rwa [State.FaultRecordOk, hf, hc, hi]

theorem recordOk_of_clear {t : State} (hf : t.fault = false) (hc : t.cause = 0) (hi : t.finfo = 0) :
    t.FaultRecordOk :=
  ⟨fun _ => ⟨hc, hi⟩, fun h => by simp [hf] at h⟩

theorem raiseFault_inv {s : State} {v : Word} {c : Cause} (hc : causeFits v c.code = true) (ok : s.SlotsOk) :
    (raiseFault v c s).Inv :=
  ⟨SlotsKept.slotsOk (fun _ => rfl) rfl ok, fun h => by simp at h, fun _ => hc⟩

theorem Writes.slotsOk {s : State} {i : Instr} {n : SlotNum} {b : Option Buffer} (h : Writes s i n b)
    (ok : s.SlotsOk) : (s.setSlot n b).SlotsOk := by
  intro m d hd
  rw [slot_setSlot] at hd
  split at hd
  · obtain rfl : b = some d := hd
    exact h.ok ok
  · exact ok m d hd

theorem Quiet.inv {s t : State} (h : Quiet s t) (inv : s.Inv) : t.Inv := by
  refine ⟨SlotsKept.slotsOk h.slots h.cap inv.1, ?_⟩
  obtain hk | ⟨hf, hc, hi⟩ := h.record
  · exact StatusKept.recordOk hk inv.2
  · exact recordOk_of_clear hf hc hi

theorem execute_keeps_inv {v : Word} {s t : State} (inv : s.Inv) (h : execute v s = .next t) : t.Inv := by
  obtain ⟨c, hc, rfl⟩ | ⟨i, n, b, -, hw, rfl⟩ | ⟨lo, hi, data, rfl⟩ := execute_next_cases h
  · exact raiseFault_inv hc inv.1
  · exact ⟨hw.slotsOk inv.1, inv.2⟩
  · exact inv

theorem resetEvent_inv (s : State) : (resetEvent s).Inv :=
  ⟨fun n b hb => by simp at hb, recordOk_of_clear rfl rfl rfl⟩

/-- Settles O17: by the three kinds of step; a command keeps the invariant whichever of its effects it has. -/
theorem everyStepKeepsTheInvariant : Obligations.EveryStepKeepsTheInvariant := by
  intro s t inv h
  obtain ⟨rest, -, rfl⟩ | ⟨v, rest, -, -, hx⟩ | hq := step_next_cases h
  · exact resetEvent_inv _
  · exact execute_keeps_inv (s := { s with pending := rest }) inv hx
  · exact hq.inv inv

/-- Settles O16: all slots are free and the record is clear. -/
theorem resetMeetsTheInvariant : Obligations.ResetMeetsTheInvariant :=
  resetEvent_inv State.reset

/-- Settles O14: every clause is a field of `State.reset`, `VALID` by the free slots. -/
theorem resetStateHasTheListedValues : Obligations.ResetStateHasTheListedValues := by
  refine ⟨resetEvent_slot State.reset, rfl, rfl, rfl, rfl, rfl, rfl, rfl, rfl, ?_, rfl⟩
  decide

end Sys2Proof.Machine
end

section
/-! PROOFS. What commands and steps leave unchanged (R11, R13, R14, R21, R31). -/

namespace Sys2Proof.Machine

/-- Settles O22: by the command's effect; only the two loads write an operand register. -/
theorem commandsWriteOnlyTheirOperandRegisters : Obligations.CommandsWriteOnlyTheirOperandRegisters := by
  intro i s t h
  have e := exec_effect i s
  rw [h] at e
  cases e with
  | raises | writes => exact ⟨rfl, rfl, fun _ => ⟨rfl, rfl⟩, fun _ => rfl⟩
  | loadsBounds hi => exact ⟨rfl, rfl, fun hne => absurd hi (hne _), fun _ => rfl⟩
  | loadsSample hi => exact ⟨rfl, rfl, fun _ => ⟨rfl, rfl⟩, fun hne => absurd hi (hne _)⟩

theorem SlotsKept.bounds_eq {s t : State} (h : SlotsKept s t) {n : SlotNum} {b d : Buffer} (hb : s.slot n = some b)
    (hd : t.slot n = some d) : d.bounds = b.bounds := by
  rw [Option.some.inj (hd.symm.trans ((h n).trans hb))]

theorem execute_keeps_bounds {v : Word} {s t : State} (h : execute v s = .next t) {n : SlotNum} {b d : Buffer}
    (hb : s.slot n = some b) (hd : t.slot n = some d) : d.bounds = b.bounds := by
  obtain ⟨c, -, rfl⟩ | ⟨i, m, new, -, hw, rfl⟩ | ⟨lo, hi, data, rfl⟩ := execute_next_cases h
  · exact SlotsKept.bounds_eq (fun _ => rfl) hb hd
  · rw [slot_setSlot] at hd
    split at hd
    next hnm =>
      subst hnm hd
      exact hw.bounds_eq hb
    · rw [Option.some.inj (hd.symm.trans hb)]
  · exact SlotsKept.bounds_eq (s := s) (fun _ => rfl) hb hd

/-- Settles O23: reset frees the slot, PUTPX keeps its bounds, and nothing else writes a valid slot and leaves it valid. -/
theorem boundsNeverChangeWhileTheSlotIsValid : Obligations.BoundsNeverChangeWhileTheSlotIsValid := by
  intro s t n b d h hb hd
  obtain ⟨rest, -, rfl⟩ | ⟨v, rest, -, -, hx⟩ | hq := step_next_cases h
  · simp at hd
  · exact execute_keeps_bounds hx hb hd
  · exact SlotsKept.bounds_eq hq.slots hb hd

/-- Settles O24: of all that a step can do, only the raised fault sets `FAULT`. -/
theorem onlyAFaultingCommandSetsFault : Obligations.OnlyAFaultingCommandSetsFault := by
  intro s t h hs ht
  obtain ⟨rest, -, rfl⟩ | ⟨v, rest, hv, -, hx⟩ | hq := step_next_cases h
  · simp at ht
  · obtain ⟨c, -, rfl⟩ | ⟨i, n, b, -, -, rfl⟩ | ⟨lo, hi, data, rfl⟩ := execute_next_cases hx
    · exact ⟨v, rest, hv, rfl, c.code_ne_zero⟩
    · exact absurd (hs.symm.trans ht) Bool.false_ne_true
    · exact absurd (hs.symm.trans ht) Bool.false_ne_true
  · obtain ⟨hkept, -, -⟩ | ⟨hcleared, -, -⟩ := hq.record
    · exact absurd ((hkept.trans hs).symm.trans ht) Bool.false_ne_true
    · exact absurd (hcleared.symm.trans ht) Bool.false_ne_true

theorem execute_keeps_other_slots {v : Word} {s t : State} (h : execute v s = .next t) {n : SlotNum}
    (hn : n ≠ rdField v) : t.slot n = s.slot n := by
  obtain ⟨c, -, rfl⟩ | ⟨i, m, b, hv, hw, rfl⟩ | ⟨lo, hi, data, rfl⟩ := execute_next_cases h
  · rfl
  · rw [rdField_of_decode hv, ← hw.slot_eq] at hn
    exact slot_setSlot_other s b hn
  · rfl

/-- Settles O26: the write is dropped, or runs a command, which writes only the slot in its `RD` field. -/
theorem commandChangesOnlyItsDestinationSlot : Obligations.CommandChangesOnlyItsDestinationSlot := by
  intro s t v rest n hv h hn
  rw [step_write (r := .cmd) hv] at h
  obtain hq | ⟨-, -, hx⟩ := regWrite_next_cases h
  · exact hq.slots n
  · exact execute_keeps_other_slots hx fun e => hn (e ▸ rdField_val v)

/-- A command that needs one slot valid and another free leaves the first as it is. -/
theorem exec_keeps_source {i : Instr} {rd rs : SlotNum} {s t : State} (hold : mustHold i = some rs)
    (free : mustBeFree i = some rd) (h : exec i s = .next t) : t.slot rs = s.slot rs := by
  have e := exec_effect i s
  rw [h] at e
  cases e with
  | writes hw => exact slot_setSlot_other s _ (hw.ne_source hold free)
  | _ => rfl

/-- Settles O27: each of the five commands needs `rs` valid and `rd` free, so it writes another slot or none. -/
theorem sourceSlotIsNeverWritten : Obligations.SourceSlotIsNeverWritten := by
  intro rd rs i s t hi h
  obtain ⟨hold, free⟩ : mustHold i = some rs ∧ mustBeFree i = some rd := by
    simp only [List.mem_cons, List.not_mem_nil, or_false] at hi
    obtain rfl | rfl | rfl | rfl | rfl := hi <;> exact ⟨rfl, rfl⟩
  exact exec_keeps_source hold free h

end Sys2Proof.Machine
end

section
/-! PROOFS. Nothing but an access the spec does not define stops the machine (R35, R39, R49, R111). -/

namespace Sys2Proof.Machine

/-- Where every slot is well formed a command never meets a missing sample (R12), so it answers a next state (R111). -/
theorem exec_answers {s : State} (ok : s.SlotsOk) (i : Instr) : ∃ t, exec i s = .next t := by
  have e := exec_effect i s
  generalize exec i s = answer at e ⊢
  cases e with
  | stuck _ hs hin hp =>
    obtain ⟨wf, -⟩ := ok _ _ hs
    obtain ⟨p, hread⟩ := pos_read wf hin
    cases hp.symm.trans hread
  | _ => exact ⟨_, rfl⟩

theorem execute_answers {s : State} (ok : s.SlotsOk) (v : Word) : ∃ t, execute v s = .next t := by
  cases hv : decode v with
  | illegal why => exact ⟨raiseFault v .illegal s, by simp only [execute, hv]⟩
  | instr i => simpa only [execute, hv] using exec_answers ok i

theorem regWrite_answers {s : State} (ok : s.SlotsOk) (r : Reg) (v : Word) : ∃ t, regWrite r v s = .next t := by
  cases r with
  | cmd =>
    simp only [regWrite]
    split
    · exact ⟨s, rfl⟩
    · exact execute_answers ok v
  | _ => exact ⟨_, rfl⟩

/-- Settles O18: by the five kinds of step; only a register write can run a command, and it answers from well-formed slots. -/
theorem onlyUndefinedAccessesStopTheMachine : Obligations.OnlyUndefinedAccessesStopTheMachine := by
  intro s inv
  obtain ⟨-, e⟩ | ⟨a, rest, d, hp, hbad, e⟩ | ⟨rest, -, e⟩ | ⟨r, rest, -, e⟩ | ⟨r, v, rest, -, e⟩ := step_cases s
  · exact .inl ⟨_, e⟩
  · exact .inr ⟨a, rest, _, hp, hbad, e⟩
  · exact .inl ⟨_, e⟩
  · exact .inl ⟨_, e⟩
  · rw [e]
    exact .inl (regWrite_answers (s := { s with pending := rest }) inv.1 r v)

end Sys2Proof.Machine
end

section
/-! PROOFS. What a read and a write of each location do, and which accesses are refused (R34 to R39). -/

namespace Sys2Proof.Machine

/-! ### Reads -/

/-- No location shows the host's own side. -/
theorem regRead_pending (r : Reg) (s : State) (rest : List HostAction) :
    regRead r { s with pending := rest } = regRead r s := by
  cases r <;> rfl

theorem readAnswers_regRead (r : Reg) : ReadAnswers r.offset (regRead r) := by
  intro s rest hp
  rw [step_read hp, regRead_pending]

/-- The bits of a `STATUS` read (R21). -/
theorem statusWord_getLsbD (s : State) (k : Nat) :
    s.statusWord.getLsbD k =
      if k = 0 then s.fault else if 4 ≤ k ∧ k ≤ 7 then s.cause.getLsbD (k - 4) else false := by
  simp only [State.statusWord, BitVec.getLsbD_append, BitVec.getLsbD_ofBool, BitVec.getLsbD_zero]
  obtain rfl | ⟨h1, h4⟩ | ⟨h4, h8⟩ | h8 : k = 0 ∨ (1 ≤ k ∧ k < 4) ∨ (4 ≤ k ∧ k < 8) ∨ 8 ≤ k := by omega
  · simp
  · simp (disch := omega) only [if_pos, if_neg]
  · simp (disch := omega) only [if_pos, if_neg, Nat.sub_sub]
  · simp (disch := omega) only [if_neg]

/-- The bits of a `VALID` read (R23). -/
theorem validWord_getLsbD (s : State) {k : Nat} (hk : k < 32) :
    s.validWord.getLsbD k = if h : k < 16 then (s.slot ⟨k, h⟩).isSome else false := by
  rw [State.validWord, BitVec.getLsbD_setWidth, BitVec.getLsbD_ofBoolListLE]
  split
  next h => simp [hk, h, State.slot]
  next h => simp [h]

/-- Settles O7: every location answers `regRead`; `STATUS` and `VALID` bit by bit by the words' own lemmas. -/
theorem registerReadsAnswerAndChangeNothing : Obligations.RegisterReadsAnswerAndChangeNothing :=
  ⟨readAnswers_regRead .cmd, readAnswers_regRead .finfo, readAnswers_regRead .amount, readAnswers_regRead .bmin,
    readAnswers_regRead .bmax, readAnswers_regRead .pxpos, readAnswers_regRead .pxdata,
    ⟨State.statusWord, readAnswers_regRead .status, fun s k _ => statusWord_getLsbD s k⟩,
    ⟨State.validWord, readAnswers_regRead .valid, fun s _ hk => validWord_getLsbD s hk⟩⟩

/-! ### Writes -/

/-- R114: a `CMD` write is dropped while a fault is recorded. -/
theorem regWrite_cmd_faulted {s : State} (h : s.fault = true) (v : Word) : regWrite .cmd v s = .next s := by
  simp only [regWrite, if_pos h]

/-- R37: a `CMD` write with no fault recorded is `Execute`. -/
theorem regWrite_cmd_ready {s : State} (h : s.fault = false) (v : Word) : regWrite .cmd v s = execute v s := by
  simp only [regWrite, h, Bool.false_eq_true, if_false]

theorem execute_of_decode {v : Word} {i : Instr} (h : decode v = .instr i) (s : State) : execute v s = exec i s := by
  simp only [execute, h]

theorem writeDoes_of_regWrite {r : Reg} {does : Word → State → State}
    (h : ∀ v s, regWrite r v s = .next (does v s)) : WriteDoes r.offset does :=
  fun _ v _ hp => (step_write hp).trans (h v _)

/-- Settles O6: the step is the `CMD` write, the write is `Execute`, and that is exec of the decoded command. -/
theorem stepRunsTheDecodedCommand : Obligations.StepRunsTheDecodedCommand := by
  intro s v rest i hv hf hi
  rw [step_write (r := .cmd) hv, regWrite_cmd_ready (s := { s with pending := rest }) hf, execute_of_decode hi]

/-- Settles O8: location by location, `CMD` by its two cases of `FAULT`. -/
theorem registerWritesHaveTheirEffect : Obligations.RegisterWritesHaveTheirEffect := by
  refine ⟨fun s v rest hv => ?_, writeDoes_of_regWrite (r := .status) fun _ _ => rfl,
    writeDoes_of_regWrite (r := .finfo) fun _ _ => rfl, writeDoes_of_regWrite (r := .amount) fun _ _ => rfl,
    writeDoes_of_regWrite (r := .bmin) fun _ _ => rfl, writeDoes_of_regWrite (r := .bmax) fun _ _ => rfl,
    writeDoes_of_regWrite (r := .pxpos) fun _ _ => rfl, writeDoes_of_regWrite (r := .pxdata) fun _ _ => rfl,
    writeDoes_of_regWrite (r := .valid) fun _ _ => rfl⟩
  rw [step_write (r := .cmd) hv]
  exact ⟨fun hf => regWrite_cmd_faulted (s := { s with pending := rest }) hf v,
    fun hf => regWrite_cmd_ready (s := { s with pending := rest }) hf v⟩

/-! ### Refused accesses -/

/-- R35, R39: the accesses that exist at the interface are the 32-bit ones at a multiple of 4 below 0x24. -/
theorem accessDefect_eq_none {bits off : Nat} :
    accessDefect bits off = none ↔ bits = 32 ∧ off % 4 = 0 ∧ off < 0x24 := by
  unfold accessDefect
  split_ifs <;> simp <;> omega

theorem access_refused {bits off : Nat} (h : bits ≠ 32 ∨ off % 4 ≠ 0 ∨ 0x24 ≤ off) (act : Reg → Result) :
    ∃ r, access bits off act = .refused r := by
  cases hd : accessDefect bits off with
  | some d => exact ⟨_, access_defect hd act⟩
  | none =>
    obtain ⟨hb, ha, hr⟩ := accessDefect_eq_none.1 hd
    omega

/-- Settles O9: an access with one of the defects is refused, and one with none reaches a location, whose read answers. -/
theorem undefinedAccessesAreRefused : Obligations.UndefinedAccessesAreRefused := by
  intro s rest bits off v
  refine ⟨fun hbad => ⟨fun hp => ?_, fun hp => ?_⟩, fun hb ha hr hp => ?_⟩
  · rw [step_action hp]
    exact access_refused hbad _
  · rw [step_action hp]
    exact access_refused hbad _
  · obtain ⟨rfl, r, rfl⟩ := exists_reg_of_no_defect (accessDefect_eq_none.2 ⟨hb, ha, hr⟩)
    exact ⟨_, step_read hp⟩

end Sys2Proof.Machine
end

section
/-! PROOFS. The linear index of a coordinate is its place in raster order (R8, R32). -/

namespace Sys2Proof.Machine

/-- R32's index on the row and column of the sample table. -/
theorem linearIndex_eq {q : Bounds} {x y : Int} (h : q.InBounds x y) :
    q.linearIndex x y = q.row y * q.width + q.col x := by
  obtain ⟨⟨hx, hx'⟩, hy, -⟩ := h
  have hcol : x - q.minX.toInt = q.col x := by unfold Bounds.col; omega
  have hrow : y - q.minY.toInt = q.row y := by unfold Bounds.row; omega
  have hwidth : q.maxX.toInt - q.minX.toInt = q.width := by unfold Bounds.width; omega
  rw [Bounds.linearIndex, hcol, hrow, hwidth]
  exact Int.toNat_natCast (q.row y * q.width + q.col x)

/-- An index within a row of width `w` comes before every index of a later row. -/
theorem rowMajor_lt {w r c r' : Nat} (hc : c < w) (hr : r < r') : r * w + c < r' * w :=
  calc r * w + c < r * w + w := Nat.add_lt_add_left hc _
    _ = (r + 1) * w := (Nat.succ_mul r w).symm
    _ ≤ r' * w := Nat.mul_le_mul_right w hr

/-- Rows of one length read one after the other: the place of column `c` of row `r`. -/
theorem getElem?_flatten_rowMajor {α : Type} {w c : Nat} (hc : c < w) {rows : List (List α)}
    (hw : ∀ cells ∈ rows, cells.length = w) (r : Nat) :
    rows.flatten[r * w + c]? = rows[r]?.bind (·[c]?) := by
  induction rows generalizing r with
  | nil => simp
  | cons cells rows ih =>
    obtain ⟨hcells, hrows⟩ := List.forall_mem_cons.1 hw
    cases r with
    | zero => simp [List.getElem?_append_left, hcells, hc]
    | succ r =>
      have hplace : (r + 1) * w + c = cells.length + (r * w + c) := by rw [hcells]; ring
      rw [List.flatten_cons, hplace, List.getElem?_append_right (Nat.le_add_right _ _),
        Nat.add_sub_cancel_left, ih hrows]
      rfl

theorem linearIndex_lt_pixels {q : Bounds} {x y : Int} (h : q.InBounds x y) : q.linearIndex x y < q.pixels := by
  rw [linearIndex_eq h, Bounds.pixels, Nat.mul_comm q.width]
  exact rowMajor_lt (col_lt h) (row_lt h)

theorem getElem?_flatten_linearIndex {b : Buffer} (wf : b.WF) {x y : Int} (h : b.bounds.InBounds x y) :
    b.rows.flatten[b.bounds.linearIndex x y]? = b.pxRead? x y := by
  obtain ⟨-, -, hw⟩ := wf
  rw [linearIndex_eq h, getElem?_flatten_rowMajor (col_lt h) hw, Buffer.pxRead?, if_pos h]
  cases b.rows[b.bounds.row y]? <;> rfl

/-- The index increases from row to row, and along a row. -/
theorem linearIndex_lt_linearIndex {q : Bounds} {x y x' y' : Int} (h : q.InBounds x y) (h' : q.InBounds x' y')
    (later : y < y' ∨ (y = y' ∧ x < x')) : q.linearIndex x y < q.linearIndex x' y' := by
  rw [linearIndex_eq h, linearIndex_eq h']
  have hc := col_lt h
  obtain ⟨⟨hx, -⟩, hy, -⟩ := h
  obtain hlt | ⟨rfl, hlt⟩ := later
  · have hrow : q.row y < q.row y' := by unfold Bounds.row; omega
    exact (rowMajor_lt hc hrow).trans_le (Nat.le_add_right _ _)
  · have hcol : q.col x < q.col x' := by unfold Bounds.col; omega
    exact Nat.add_lt_add_left hcol _

/-- Settles O57: the index is row times width plus column, and rows of one width keep that order. -/
theorem linearIndexIsRasterOrder : Obligations.LinearIndexIsRasterOrder :=
  fun _ _ _ wf h => ⟨linearIndex_lt_pixels h, getElem?_flatten_linearIndex wf h, fun _ _ => linearIndex_lt_linearIndex h⟩

end Sys2Proof.Machine
end

section
/-! PROOFS. The decoder against the encoder, the opcode map and the list of illegal words (R45 to R51). -/

namespace Sys2Proof

/-! ### A command from its fields -/

/-- A word with a command's opcode and slots in its fields and zeros in 31:16 decodes to the command (R49). -/
theorem decode_of_fields {v : Word} {i : Instr} (hz : zeroField v = 0) (hopc : opcField v = opcodeOf i)
    (hrd : rdField v = rdOperand i) (hrs : rsField v = rsOperand i) : decode v = .instr i := by
  have hopc' : (opcField v).toNat = (opcodeOf i).toNat := congrArg BitVec.toNat hopc
  rw [decode, if_neg (not_not.2 hz)]
  cases i with
  | alloc | free | putpx => exact hopc' ▸ formatD_eq_instr.2 ⟨hrs, congrArg _ hrd⟩
  | getb | getpx => exact hopc' ▸ formatS_eq_instr.2 ⟨hrd, congrArg _ hrs⟩
  | copy | contrast | gray | invert | mblur => exact hopc' ▸ formatDS_eq_instr.2 (congrArg₂ _ hrd hrs)

theorem decode_encode (i : Instr) : decode (encode i) = .instr i := by
  rw [encode_eq_commandWord]
  exact decode_of_fields (zeroField_commandWord _ _ _) (opcField_commandWord _ _ _)
    (rdField_commandWord _ _ _) (rsField_commandWord _ _ _)

/-- Settles O1: the encoder puts the opcode and the slots in their fields, and the decoder reads a command from its fields. -/
theorem decodeOfEncodeIsTheCommand : Obligations.DecodeOfEncodeIsTheCommand :=
  decode_encode

/-- Settles O2: the fields of a word that decodes are the command's, and a word is its fields. -/
theorem decodedWordIsTheEncoding : Obligations.DecodedWordIsTheEncoding :=
  fun _ _ => encode_of_decode

/-- Settles O5, by evaluation of the decoder. -/
theorem writtenOutWordsDecode : Obligations.WrittenOutWordsDecode := by
  unfold Obligations.WrittenOutWordsDecode
  decide

/-! ### Match and mask -/

theorem word_eq_iff_fields {v w : Word} :
    v = w ↔ zeroField v = zeroField w ∧ opcField v = opcField w ∧ rdField v = rdField w ∧
      rsField v = rsField w := by
  refine ⟨fun h => h ▸ ⟨rfl, rfl, rfl, rfl⟩, fun ⟨hz, hopc, hrd, hrs⟩ => BitVec.eq_of_toNat_eq ?_⟩
  rw [← BitVec.toNat_inj, zeroField_toNat, zeroField_toNat] at hz
  rw [← BitVec.toNat_inj, opcField_toNat, opcField_toNat] at hopc
  rw [← Fin.val_inj, rdField_val, rdField_val] at hrd
  rw [← Fin.val_inj, rsField_val, rsField_val] at hrs
  omega

@[simp] theorem zeroField_and_mask (v : Word) (f : Format) : zeroField (v &&& f.mask) = zeroField v := by
  have hm : f.mask.extractLsb' 16 16 = BitVec.allOnes 16 := by cases f <;> decide
  rw [zeroField, BitVec.extractLsb'_and, hm, BitVec.and_allOnes, zeroField]

@[simp] theorem opcField_and_mask (v : Word) (f : Format) : opcField (v &&& f.mask) = opcField v := by
  have hm : f.mask.extractLsb' 0 8 = BitVec.allOnes 8 := by cases f <;> decide
  rw [opcField, BitVec.extractLsb'_and, hm, BitVec.and_allOnes, opcField]

/-- Only format S fixes `RD` (R47). -/
@[simp] theorem rdField_and_mask (v : Word) (f : Format) :
    rdField (v &&& f.mask) = if f = .s then rdField v else 0 := by
  have hm : f.mask.extractLsb' 8 4 = if f = .s then BitVec.allOnes 4 else 0#4 := by cases f <;> decide
  rw [rdField, BitVec.extractLsb'_and, hm]
  split
  · rw [BitVec.and_allOnes, rdField]
  · rw [BitVec.and_zero]; rfl

/-- Only format D fixes `RS` (R47). -/
@[simp] theorem rsField_and_mask (v : Word) (f : Format) :
    rsField (v &&& f.mask) = if f = .d then rsField v else 0 := by
  have hm : f.mask.extractLsb' 12 4 = if f = .d then BitVec.allOnes 4 else 0#4 := by cases f <;> decide
  rw [rsField, BitVec.extractLsb'_and, hm]
  split
  · rw [BitVec.and_allOnes, rsField]
  · rw [BitVec.and_zero]; rfl

/-- What a match under a format's mask says of the four fields (R47). -/
theorem and_mask_eq_commandWord {v : Word} {f : Format} {opc : BitVec 8} :
    v &&& f.mask = commandWord opc 0 0 ↔
      zeroField v = 0 ∧ opcField v = opc ∧ (f = .s → rdField v = 0) ∧ (f = .d → rsField v = 0) := by
  rw [word_eq_iff_fields, zeroField_commandWord, opcField_commandWord, rdField_commandWord, rsField_commandWord]
  simp

/-- The format of a command (R50). -/
def formatOf : Instr → Format
  | .alloc _ | .free _ | .putpx _ => .d
  | .getb _ | .getpx _ => .s
  | .copy _ _ | .contrast _ _ | .gray _ _ | .invert _ _ | .mblur _ _ => .ds

/-- The row of the opcode map that a command belongs to (R50). -/
def rowOf (i : Instr) : Row := ⟨i.mnemonic, formatOf i, commandWord (opcodeOf i) 0 0⟩

/-- The opcode map is the rows of the ten commands (R50). -/
theorem opcodeRows_eq_map_rowOf :
    opcodeRows = [Instr.alloc 0, .free 0, .getb 0, .getpx 0, .putpx 0, .copy 0 0, .contrast 0 0, .gray 0 0,
      .invert 0 0, .mblur 0 0].map rowOf := by
  decide

theorem exists_rowOf_eq {row : Row} (h : row ∈ opcodeRows) : ∃ i, rowOf i = row := by
  rw [opcodeRows_eq_map_rowOf] at h
  obtain ⟨i, -, hi⟩ := List.mem_map.1 h
  exact ⟨i, hi⟩

theorem rowOf_mem_opcodeRows (i : Instr) : rowOf i ∈ opcodeRows := by
  rw [opcodeRows_eq_map_rowOf]
  cases i <;> simp [rowOf, Instr.mnemonic, formatOf, opcodeOf]

/-- The mnemonics of the opcode map are distinct (R50). -/
theorem row_eq_of_mnemonic :
    ∀ row ∈ opcodeRows, ∀ row' ∈ opcodeRows, row.mnemonic = row'.mnemonic → row = row' := by
  decide

theorem rdOperand_eq_zero {i : Instr} (h : formatOf i = .s) : rdOperand i = 0 := by
  cases i with
  | getb | getpx => rfl
  | _ => cases h

theorem rsOperand_eq_zero {i : Instr} (h : formatOf i = .d) : rsOperand i = 0 := by
  cases i with
  | alloc | free | putpx => rfl
  | _ => cases h

/-- A command's row has a command for all slots that its format admits (R47, R50). -/
theorem exists_command_with_slots (j : Instr) {rd rs : SlotNum} (hrd : formatOf j = .s → rd = 0)
    (hrs : formatOf j = .d → rs = 0) :
    ∃ i, i.mnemonic = j.mnemonic ∧ opcodeOf i = opcodeOf j ∧ rdOperand i = rd ∧ rsOperand i = rs := by
  cases j with
  | alloc => exact ⟨.alloc rd, rfl, rfl, rfl, (hrs rfl).symm⟩
  | free => exact ⟨.free rd, rfl, rfl, rfl, (hrs rfl).symm⟩
  | getb => exact ⟨.getb rs, rfl, rfl, (hrd rfl).symm, rfl⟩
  | getpx => exact ⟨.getpx rs, rfl, rfl, (hrd rfl).symm, rfl⟩
  | putpx => exact ⟨.putpx rd, rfl, rfl, rfl, (hrs rfl).symm⟩
  | copy => exact ⟨.copy rd rs, rfl, rfl, rfl, rfl⟩
  | contrast => exact ⟨.contrast rd rs, rfl, rfl, rfl, rfl⟩
  | gray => exact ⟨.gray rd rs, rfl, rfl, rfl, rfl⟩
  | invert => exact ⟨.invert rd rs, rfl, rfl, rfl, rfl⟩
  | mblur => exact ⟨.mblur rd rs, rfl, rfl, rfl, rfl⟩

theorem and_mask_of_decode {v : Word} {i : Instr} (h : decode v = .instr i) :
    v &&& (rowOf i).format.mask = (rowOf i).pattern := by
  obtain ⟨hz, hopc, hrd, hrs⟩ := fields_of_decode h
  exact and_mask_eq_commandWord.2
    ⟨hz, hopc, fun hf => hrd.trans (rdOperand_eq_zero hf), fun hf => hrs.trans (rsOperand_eq_zero hf)⟩

theorem exists_decode_of_and_mask {v : Word} {j : Instr} (h : v &&& (rowOf j).format.mask = (rowOf j).pattern) :
    ∃ i, decode v = .instr i ∧ i.mnemonic = j.mnemonic := by
  obtain ⟨hz, hopc, hrd, hrs⟩ := and_mask_eq_commandWord.1 h
  obtain ⟨i, hmn, hiopc, hird, hirs⟩ := exists_command_with_slots j hrd hrs
  exact ⟨i, decode_of_fields hz (hopc.trans hiopc.symm) hird.symm hirs.symm, hmn⟩

/-- Settles O3: the mask keeps the opcode, the zeros and the slot field the format does not use; the mnemonic names the row. -/
theorem decodeAgreesWithMatchAndMask : Obligations.DecodeAgreesWithMatchAndMask := by
  refine ⟨⟨rfl, rfl, rfl⟩, fun v row hrow => ⟨?_, fun h => ?_⟩⟩
  · rintro ⟨i, hi, hmn⟩
    obtain rfl := row_eq_of_mnemonic (rowOf i) (rowOf_mem_opcodeRows i) row hrow hmn
    exact and_mask_of_decode hi
  · obtain ⟨j, rfl⟩ := exists_rowOf_eq hrow
    exact exists_decode_of_and_mask h

end Sys2Proof

namespace Sys2Proof.Machine

/-! ### Illegal words -/

theorem rsField_of_formatD {v : Word} {make : SlotNum → Instr} {why : Reject} (h : formatD v make = .illegal why) :
    rsField v ≠ 0 := by
  intro hrs
  cases h.symm.trans (formatD_eq_instr.2 ⟨hrs, rfl⟩)

theorem rdField_of_formatS {v : Word} {make : SlotNum → Instr} {why : Reject} (h : formatS v make = .illegal why) :
    rdField v ≠ 0 := by
  intro hrd
  cases h.symm.trans (formatS_eq_instr.2 ⟨hrd, rfl⟩)

/-- R51's list by the fields of the word. -/
theorem illegalWord_iff_fields {v : Word} :
    IllegalWord v ↔
      zeroField v ≠ 0 ∨
        (opcField v).toNat = 0x00 ∨ (0x06 ≤ (opcField v).toNat ∧ (opcField v).toNat ≤ 0x0F) ∨
        0x15 ≤ (opcField v).toNat ∨
        (((opcField v).toNat = 0x01 ∨ (opcField v).toNat = 0x02 ∨ (opcField v).toNat = 0x05) ∧ rsField v ≠ 0) ∨
        (((opcField v).toNat = 0x03 ∨ (opcField v).toNat = 0x04) ∧ rdField v ≠ 0) := by
  rw [← BitVec.toNat_inj.ne, ← Fin.val_inj.ne, ← Fin.val_inj.ne, zeroField_toNat, opcField_toNat, rdField_val,
    rsField_val]
  rfl

theorem not_illegalWord_of_decode {v : Word} {i : Instr} (h : decode v = .instr i) : ¬ IllegalWord v := by
  obtain ⟨hz, hopc, hrd, hrs⟩ := fields_of_decode h
  rw [illegalWord_iff_fields, hz, hopc, hrd, hrs]
  cases i <;> simp [opcodeOf, rdOperand, rsOperand]

theorem illegalWord_of_decode {v : Word} {why : Reject} (h : decode v = .illegal why) : IllegalWord v := by
  rw [illegalWord_iff_fields]
  unfold decode at h
  split at h
  next hz => exact .inl hz
  next =>
    split at h
    iterate 2
      next hopc => simp [hopc, rsField_of_formatD h]
    iterate 2
      next hopc => simp [hopc, rdField_of_formatS h]
    next hopc => simp [hopc, rsField_of_formatD h]
    iterate 5
      next => cases h
    next =>
      have hopc : (opcField v).toNat = 0x00 ∨ (0x06 ≤ (opcField v).toNat ∧ (opcField v).toNat ≤ 0x0F) ∨
          0x15 ≤ (opcField v).toNat := by grind
      exact .inr (hopc.imp_right (.imp_right .inl))

theorem execute_of_illegal {v : Word} {why : Reject} (h : decode v = .illegal why) (s : State) :
    execute v s = .next (raiseFault v .illegal s) := by
  simp only [execute, h]

theorem not_illegalWord_iff_decode {v : Word} : ¬ IllegalWord v ↔ ∃ i, decode v = .instr i := by
  refine ⟨fun hv => ?_, fun ⟨i, hi⟩ => not_illegalWord_of_decode hi⟩
  cases hd : decode v with
  | instr i => exact ⟨i, rfl⟩
  | illegal why => exact absurd (illegalWord_of_decode hd) hv

/-- Settles O4: the decoder rejects the words of the list and no others, and a `CMD` write of a rejected word is the fault
entry. -/
theorem illegalWordsRaiseIllegal : Obligations.IllegalWordsRaiseIllegal := by
  refine ⟨fun v => not_illegalWord_iff_decode, fun s v rest hv hf hill => ?_⟩
  rw [step_write (r := .cmd) hv, regWrite_cmd_ready (s := { s with pending := rest }) hf]
  cases hd : decode v with
  | instr i => exact absurd hill (not_illegalWord_of_decode hd)
  | illegal why => exact execute_of_illegal hd _

end Sys2Proof.Machine
end

section
/-! PROOFS. Host scripts action by action, and STOREPX and LOADPX on a slot (R53, R54). -/

namespace Sys2Proof.Machine

/-! ### Running a script -/

/-- The actions of `script` take the block from `s` to `t`, whatever the host asks after them. -/
def Performs (script : List HostAction) (s t : State) : Prop :=
  ∀ rest, core.run script.length { s with pending := script ++ rest } = .next { t with pending := rest }

theorem run_succ_of_step {s t : State} (h : step s = .next t) (k : Nat) : core.run (k + 1) s = core.run k t := by
  have hs : core.step s = .next t := h
  simp only [Host.Core.run, hs]

theorem run_add_of_next {k : Nat} {s t : State} (h : core.run k s = .next t) (m : Nat) :
    core.run (k + m) s = core.run m t := by
  induction k generalizing s with
  | zero =>
    cases h
    rw [Nat.zero_add]
  | succ k ih =>
    cases hs : step s with
    | next u =>
      rw [run_succ_of_step hs] at h
      rw [Nat.succ_add, run_succ_of_step hs, ih h]
    | fault | refused =>
      have hs' : core.step s = _ := hs
      simp only [Host.Core.run, hs'] at h
      cases h

theorem Performs.nil (s : State) : Performs [] s s :=
  fun _ => rfl

theorem Performs.cons {a : HostAction} {script : List HostAction} {s t u : State}
    (ha : ∀ rest, perform a { s with pending := rest } = .next { t with pending := rest }) (h : Performs script t u) :
    Performs (a :: script) s u := fun rest =>
  (run_succ_of_step (s := { s with pending := a :: script ++ rest })
    ((step_action rfl).trans (ha (script ++ rest))) script.length).trans (h rest)

theorem Performs.append {script script' : List HostAction} {s t u : State} (h : Performs script s t)
    (h' : Performs script' t u) : Performs (script ++ script') s u := by
  intro rest
  rw [List.length_append, List.append_assoc, run_add_of_next (h _), h']

theorem Performs.runScript_eq {script : List HostAction} {s t : State} (h : Performs script s t) :
    runScript script s = .next { t with pending := s.pending } :=
  h s.pending

theorem perform_wr (r : Reg) (v : Word) (s : State) : perform (.wr r v) s = regWrite r v s :=
  access_offset r _

theorem perform_rd (r : Reg) (s : State) :
    perform (.rd r) s = .next { s with answers := regRead r s :: s.answers } :=
  access_offset r _

/-- A command line runs the command when no fault is recorded (R37, R53). -/
theorem perform_issue {s : State} (h : s.fault = false) (i : Instr) : perform (issue i) s = exec i s :=
  (perform_wr .cmd _ s).trans ((regWrite_cmd_ready h _).trans (execute_of_decode (decode_encode i) s))

/-! ### Coordinates and samples in the operand registers -/

theorem inBounds_of_pxRead? {b : Buffer} {x y : Int} {p : Sample} (h : b.pxRead? x y = some p) :
    b.bounds.InBounds x y := by
  by_contra hin
  cases h.symm.trans (pxRead?_outside hin)

theorem lowHalf_pairWord (y x : Coord) : lowHalf (pairWord y x) = x :=
  BitVec.extractLsb'_append_eq_right

theorem highHalf_pairWord (y x : Coord) : highHalf (pairWord y x) = y :=
  BitVec.extractLsb'_append_eq_left

theorem sampleOfWord_wordOfSample (p : Sample) : sampleOfWord (wordOfSample p) = p := by
  have hr : (wordOfSample p).extractLsb' 0 8 = p.r := BitVec.extractLsb'_append_eq_right
  have hg : (wordOfSample p).extractLsb' 8 8 = p.g :=
    (BitVec.extractLsb'_append_eq_of_le (w := 8) (by decide)).trans BitVec.extractLsb'_append_eq_right
  have hb : (wordOfSample p).extractLsb' 16 8 = p.b :=
    (BitVec.extractLsb'_append_eq_of_le (w := 8) (by decide)).trans
      ((BitVec.extractLsb'_append_eq_of_le (w := 8) (by decide)).trans BitVec.extractLsb'_append_eq_right)
  have ha : (wordOfSample p).extractLsb' 24 8 = p.a :=
    (BitVec.extractLsb'_append_eq_of_le (w := 8) (by decide)).trans
      ((BitVec.extractLsb'_append_eq_of_le (w := 8) (by decide)).trans BitVec.extractLsb'_append_eq_left)
  rw [sampleOfWord, hr, hg, hb, ha]

/-- `PXPOS` for the coordinate `(x, y)` (R17, R54). -/
def posWord (x y : Int) : Word := pairWord (u16 y) (u16 x)

theorem toInt_u16 {lo hi : Coord} {n : Int} (hlo : lo.toInt ≤ n) (hhi : n < hi.toInt) : (u16 n).toInt = n := by
  exact BitVec.toInt_ofInt_eq_self (by decide) (lo.le_toInt.trans hlo) (hhi.trans hi.toInt_lt)

theorem posX_posWord {s : State} {q : Bounds} {x y : Int} (h : q.InBounds x y) (hp : s.pxpos = posWord x y) :
    s.posX = x := by
  obtain ⟨⟨hlo, hhi⟩, -⟩ := h
  rw [State.posX, hp, posWord, lowHalf_pairWord, toInt_u16 hlo hhi]

theorem posY_posWord {s : State} {q : Bounds} {x y : Int} (h : q.InBounds x y) (hp : s.pxpos = posWord x y) :
    s.posY = y := by
  obtain ⟨-, hlo, hhi⟩ := h
  rw [State.posY, hp, posWord, highHalf_pairWord, toInt_u16 hlo hhi]

/-! ### STOREPX and LOADPX -/

theorem execPutpx_of_read {rd : SlotNum} {s : State} {b : Buffer} {x y : Int} {old : Sample}
    (hs : s.slot rd = some b) (hx : s.posX = x) (hy : s.posY = y) (hp : b.pxRead? x y = some old) :
    execPutpx rd s = .next (s.setSlot rd (some (b.pxWrite x y (sampleOfWord s.pxdata)))) := by
  subst hx hy
  simp only [execPutpx, hs, if_pos (inBounds_of_pxRead? hp), hp]

theorem execGetpx_of_read {rs : SlotNum} {s : State} {b : Buffer} {x y : Int} {p : Sample}
    (hs : s.slot rs = some b) (hx : s.posX = x) (hy : s.posY = y) (hp : b.pxRead? x y = some p) :
    execGetpx rs s = .next { s with pxdata := wordOfSample p } := by
  subst hx hy
  simp only [execGetpx, hs, if_pos (inBounds_of_pxRead? hp), hp]

/-- STOREPX at a coordinate that has a sample replaces that sample (R54, R104). -/
theorem storePx_performs {s : State} {n : SlotNum} {b : Buffer} {x y : Int} {old : Sample} (hf : s.fault = false)
    (hs : s.slot n = some b) (hp : b.pxRead? x y = some old) (p : Sample) :
    Performs (storePx n x y p) s
      ({ s with pxpos := posWord x y, pxdata := wordOfSample p }.setSlot n (some (b.pxWrite x y p))) := by
  have hin := inBounds_of_pxRead? hp
  refine .cons (t := { s with pxpos := posWord x y }) (fun _ => perform_wr .pxpos _ _)
    (.cons (t := { s with pxpos := posWord x y, pxdata := wordOfSample p }) (fun _ => perform_wr .pxdata _ _)
      (.cons (fun rest => ?_) (.nil _)))
  have hput := execPutpx_of_read (s := { s with pxpos := posWord x y, pxdata := wordOfSample p, pending := rest }) hs
    (posX_posWord hin rfl) (posY_posWord hin rfl) hp
  rw [sampleOfWord_wordOfSample] at hput
  exact (perform_issue (by exact hf) (.putpx n)).trans hput

/-- LOADPX at a coordinate that has a sample answers the sample's word (R54, R103). -/
theorem loadPx_performs {s : State} {n : SlotNum} {b : Buffer} {x y : Int} {p : Sample} (hf : s.fault = false)
    (hs : s.slot n = some b) (hp : b.pxRead? x y = some p) :
    Performs (loadPx n x y) s
      { s with pxpos := posWord x y, pxdata := wordOfSample p, answers := wordOfSample p :: s.answers } := by
  have hin := inBounds_of_pxRead? hp
  refine .cons (t := { s with pxpos := posWord x y }) (fun _ => perform_wr .pxpos _ _)
    (.cons (t := { s with pxpos := posWord x y, pxdata := wordOfSample p }) (fun rest => ?_)
      (.cons (fun _ => perform_rd .pxdata _) (.nil _)))
  have hget := execGetpx_of_read (s := { s with pxpos := posWord x y, pending := rest }) hs
    (posX_posWord hin rfl) (posY_posWord hin rfl) hp
  exact (perform_issue (by exact hf) (.getpx n)).trans hget

theorem sample?_of_slot {s : State} {n : SlotNum} {b : Buffer} (h : s.slot n = some b) (x y : Int) :
    s.sample? n x y = b.pxRead? x y := by
  simp only [State.sample?, h]

theorem sample?_of_slot_eq {s t : State} {n : SlotNum} (h : t.slot n = s.slot n) (x y : Int) :
    t.sample? n x y = s.sample? n x y := by
  simp only [State.sample?, h]

/-- A write of one sample of a slot is seen at no other place (R104). -/
theorem sample?_setSlot_pxWrite_other {s : State} {n m : SlotNum} {b : Buffer} {x y x' y' : Int} (p : Sample)
    (hs : s.slot n = some b) (h : ¬ (m = n ∧ x' = x ∧ y' = y)) :
    (s.setSlot n (some (b.pxWrite x y p))).sample? m x' y' = s.sample? m x' y' := by
  by_cases hm : m = n
  · subst hm
    rw [sample?_of_slot (slot_setSlot_same _ _ _), sample?_of_slot hs]
    exact pxRead?_pxWrite_other p fun hxy => h ⟨rfl, hxy⟩
  · exact sample?_of_slot_eq (slot_setSlot_other _ _ hm) x' y'

/-- Settles O56: STOREPX replaces the sample, LOADPX reads it back, and a read elsewhere does not see the write. -/
theorem storedPixelIsLoadedBack : Obligations.StoredPixelIsLoadedBack := by
  intro s n b x y p inv hf hs hin
  obtain ⟨wf, -⟩ := inv.1 n b hs
  obtain ⟨old, hold⟩ := exists_pxRead? wf hin
  have hread : (b.pxWrite x y p).pxRead? x y = some p := pxRead?_pxWrite_same wf hin p
  have hslot : (s.setSlot n (some (b.pxWrite x y p))).slot n = some (b.pxWrite x y p) := slot_setSlot_same _ _ _
  have hstore := storePx_performs hf hs hold p
  have hload := hstore.append (loadPx_performs hf hslot hread)
  exact ⟨_, hload.runScript_eq, rfl, hf, (sample?_of_slot hslot x y).trans hread,
    fun m x' y' => sample?_setSlot_pxWrite_other p hs⟩

end Sys2Proof.Machine
end

section
/-! PROOFS. The arithmetic of one channel: the clamp, GRAY's byte and the weighted add (R62 to R66). -/

namespace Sys2Proof.Machine

/-! ### The clamp (R62) -/

theorem clampToByte_of_gt {q : Rat} (h : 255 < q) : clampToByte q = 255 :=
  if_pos h

theorem clampToByte_of_neg {q : Rat} (h : q < 0) : clampToByte q = 0 := by
  have hle : ¬ 255 < q := by linarith
  rw [clampToByte, if_neg hle, if_pos h]

theorem clampToByte_of_mem {q : Rat} (h0 : 0 ≤ q) (h255 : q ≤ 255) : (clampToByte q : Int) = q.floor := by
  rw [clampToByte, if_neg h255.not_gt, if_neg h0.not_gt]
  exact Int.toNat_of_nonneg (Rat.le_floor_iff.2 h0)

/-- R62's single expression. -/
theorem clampToByte_eq_min_max (q : Rat) : (clampToByte q : Int) = min 255 (max 0 q.floor) := by
  by_cases hgt : 255 < q
  · have hfloor : 255 ≤ q.floor := Rat.le_floor_iff.2 hgt.le
    rw [clampToByte_of_gt hgt]
    omega
  by_cases hneg : q < 0
  · have hfloor : q.floor < 0 := Rat.floor_lt_iff.2 hneg
    rw [clampToByte_of_neg hneg]
    omega
  · have h0 : 0 ≤ q.floor := Rat.le_floor_iff.2 (not_lt.1 hneg)
    have h255 : q.floor < 256 := Rat.floor_lt_iff.2 ((not_lt.1 hgt).trans_lt (by norm_num))
    rw [clampToByte_of_mem (not_lt.1 hneg) (not_lt.1 hgt)]
    omega

theorem clampToByte_mono {p q : Rat} (h : p ≤ q) : clampToByte p ≤ clampToByte q := by
  have hfloor : p.floor ≤ q.floor := Rat.floor_monotone h
  have hp := clampToByte_eq_min_max p
  have hq := clampToByte_eq_min_max q
  omega

theorem clampToByte_intCast (n : Int) : (clampToByte (n : Rat) : Int) = min 255 (max 0 n) := by
  rw [clampToByte_eq_min_max, Rat.floor_intCast]

/-- The clamp of a fraction is an integer division: how every integer form of the spec comes from its exact form. -/
theorem clampToByte_intCast_div (n : Int) (d : Nat) :
    (clampToByte ((n : Rat) / (d : Rat)) : Int) = min 255 (max 0 (n / (d : Int))) := by
  rw [clampToByte_eq_min_max]
  exact congrArg (fun m => min 255 (max 0 m)) (Rat.floor_intCast_div_natCast n d)

theorem clampToByte_natCast_div (n d : Nat) : clampToByte ((n : Rat) / (d : Rat)) = min 255 (n / d) := by
  have h := clampToByte_intCast_div n d
  rw [Int.cast_natCast, ← Int.natCast_ediv, max_eq_right (Int.natCast_nonneg _)] at h
  exact_mod_cast h

/-- Settles O45: everything follows from the three cases of the definition and the floor between them. -/
theorem clampToByteSaturatesAndTruncates : Obligations.ClampToByteSaturatesAndTruncates :=
  ⟨fun _ => ⟨clampToByte_of_gt, clampToByte_of_neg, clampToByte_of_mem⟩, clampToByte_eq_min_max,
    fun _ _ => clampToByte_mono, clampToByte_intCast⟩

/-! ### The luminance and GRAY's byte (R63, R64) -/

/-- R63 at the 8-bit scale: the normalisation and the re-expression on 0 to 255 cancel. -/
theorem luminance_eq_div (r g b : Nat) :
    luminance r g b = ((2126 * r + 7152 * g + 722 * b : Nat) : Rat) / (10000 : Nat) :=
  div_mul_cancel₀ _ (by decide)

theorem lumaNumerator_le (r g b : Byte) : 2126 * r.toNat + 7152 * g.toNat + 722 * b.toNat ≤ 255 * 10000 := by
  omega

theorem luminance_nonneg (r g b : Nat) : 0 ≤ luminance r g b := by
  rw [luminance_eq_div]
  positivity

theorem luminance_le (r g b : Byte) : luminance r.toNat g.toNat b.toNat ≤ 255 := by
  rw [luminance_eq_div, div_le_iff₀ (by norm_num)]
  exact_mod_cast lumaNumerator_le r g b

/-- R63: the weights sum to 1. -/
theorem luminance_grey (v : Nat) : luminance v v v = (v : Rat) := by
  rw [luminance_eq_div]
  push_cast
  ring

/-- R64's integer form, with no wrap at 8 bits. -/
theorem gray_toNat (r g b : Byte) :
    (gray r g b).toNat = (2126 * r.toNat + 7152 * g.toNat + 722 * b.toNat) / 10000 := by
  have h : (2126 * r.toNat + 7152 * g.toNat + 722 * b.toNat) / 10000 < 2 ^ 8 := by
    have hle := lumaNumerator_le r g b
    omega
  exact Nat.mod_eq_of_lt h

theorem gray_eq_clampToByte (r g b : Byte) :
    (gray r g b).toNat = clampToByte (luminance r.toNat g.toNat b.toNat) := by
  have h := lumaNumerator_le r g b
  rw [gray_toNat, luminance_eq_div, clampToByte_natCast_div]
  omega

/-- Settles O46: the numerator of the luminance is at most 255 * 10000, so its clamp is one division. -/
theorem grayByteIsTheClampedLuminance : Obligations.GrayByteIsTheClampedLuminance := fun r g b =>
  ⟨luminance_eq_div _ _ _, luminance_nonneg _ _ _, luminance_le r g b, fun v => luminance_grey v.toNat,
    gray_eq_clampToByte r g b, gray_toNat r g b⟩

/-! ### The weighted add (R65, R66) -/

/-- R66's integer form, with no wrap at 8 bits. -/
theorem wadd_toNat (t k : Byte) (j : Nat) : (wadd t k j).toNat = min 255 (t.toNat + k.toNat / (5 * j)) :=
  Nat.mod_eq_of_lt (by omega)

/-- The exact sum of R65 over its common denominator. -/
theorem weightedSum_eq_div (t k : Nat) {j : Nat} (hj : 0 < j) :
    (t : Rat) + (1 / 5) / (j : Rat) * (k : Rat) = ((5 * j * t + k : Nat) : Rat) / (5 * j : Nat) := by
  have hj' : (j : Rat) ≠ 0 := by exact_mod_cast hj.ne'
  push_cast
  field_simp

theorem wadd_eq_clampToByte (t k : Byte) {j : Nat} (hj : 0 < j) :
    (wadd t k j).toNat = clampToByte ((t.toNat : Rat) + (1 / 5) / (j : Rat) * (k.toNat : Rat)) := by
  rw [weightedSum_eq_div _ _ hj, clampToByte_natCast_div, Nat.mul_add_div (by omega), wadd_toNat]

theorem wadd_of_lt {t k : Byte} {j : Nat} (h : k.toNat < 5 * j) : wadd t k j = t := by
  apply BitVec.eq_of_toNat_eq
  rw [wadd_toNat, Nat.div_eq_of_lt h]
  omega

theorem wadd_white (k : Byte) (j : Nat) : wadd 255 k j = 255 :=
  BitVec.eq_of_toNat_eq ((wadd_toNat 255 k j).trans (Nat.min_eq_left (Nat.le_add_right 255 _)))

theorem le_wadd (t k : Byte) (j : Nat) : t.toNat ≤ (wadd t k j).toNat := by
  rw [wadd_toNat]
  exact le_min (Nat.le_of_lt_succ t.isLt) (Nat.le_add_right _ _)

/-- Settles O47: over the denominator `5 * j` the clamp is one division, and `k` below `5 * j` adds nothing. -/
theorem weightedAddIntegerForm : Obligations.WeightedAddIntegerForm := by
  intro t k j hj
  have far : 52 ≤ j → k.toNat < 5 * j := by omega
  have dark : k = 0 → k.toNat < 5 * j := by rintro rfl; exact Nat.mul_pos (by decide) hj
  exact ⟨wadd_eq_clampToByte t k hj, wadd_toNat t k j, fun h => wadd_of_lt (far h), fun h => wadd_of_lt (dark h),
    fun h => h ▸ wadd_white k j, le_wadd t k j⟩

end Sys2Proof.Machine
end

section
/-! PROOFS. CONTRAST's byte: the exact forms, the integer form and the table of amounts (R71, R73). -/

namespace Sys2Proof.Machine

/-! ### The integer form -/

/-- R71's integer form, with no wrap at 8 bits. -/
theorem con_toNat (v : Byte) (amount : Word) :
    ((con v amount).toNat : Int) = min 255 (max 0 (conNumerator v amount / 131072)) := by
  rw [con, BitVec.toNat_ofNat]
  omega

/-- The formula of R71 over the denominator `2^17`: its numerator is the rule's `N`. -/
theorem contrastFormula_eq_div (v a : Nat) :
    (((v : Rat) / 255 - 1 / 2) * ((a : Rat) / 65536) + 1 / 2) * 255 =
      (((2 * (v : Int) - 255) * (a : Int) + 16711680 : Int) : Rat) / (131072 : Nat) := by
  push_cast
  ring

theorem clampToByte_contrastFormula (v a : Nat) :
    (clampToByte ((((v : Rat) / 255 - 1 / 2) * ((a : Rat) / 65536) + 1 / 2) * 255) : Int) =
      min 255 (max 0 (((2 * (v : Int) - 255) * (a : Int) + 16711680) / 131072)) := by
  rw [contrastFormula_eq_div]
  exact clampToByte_intCast_div _ 131072

theorem con_eq_clampToByte (v : Byte) (amount : Word) :
    (con v amount).toNat =
      clampToByte ((((v.toNat : Rat) / 255 - 1 / 2) * ((amount.toNat : Rat) / 65536) + 1 / 2) * 255) :=
  Int.ofNat_inj.1 ((con_toNat v amount).trans (clampToByte_contrastFormula _ _).symm)

/-- Settles O48: both exact forms are `N / 2^17`, whose clamp is one division. -/
theorem contrastIntegerForm : Obligations.ContrastIntegerForm := by
  intro v amount
  have centred : ((v.toNat : Rat) - 255 / 2) * ((amount.toNat : Rat) / 65536) + 255 / 2 =
      (((v.toNat : Rat) / 255 - 1 / 2) * ((amount.toNat : Rat) / 65536) + 1 / 2) * 255 := by ring
  exact ⟨con_toNat v amount, centred ▸ con_eq_clampToByte v amount⟩

/-! ### The amounts of R73 -/

theorem conNumerator_mono {v w : Byte} (h : v ≤ w) (amount : Word) : conNumerator v amount ≤ conNumerator w amount := by
  have hvw : 2 * (v.toNat : Int) - 255 ≤ 2 * (w.toNat : Int) - 255 := by
    have hnat : v.toNat ≤ w.toNat := h
    omega
  exact Int.add_le_add_right (Int.mul_le_mul_of_nonneg_right hvw (Int.natCast_nonneg _)) _

/-- R73 (d). -/
theorem con_mono {v w : Byte} (h : v ≤ w) (amount : Word) : con v amount ≤ con w amount := by
  have hv := con_toNat v amount
  have hw := con_toNat w amount
  have hn := Int.ediv_le_ediv (show (0 : Int) < 131072 by decide) (conNumerator_mono h amount)
  rw [BitVec.le_def]
  omega

/-- Just below the middle, 127.5, `N / 2^17` is 127.5 less half the amount. -/
theorem con_127_toNat (amount : Word) :
    ((con 127 amount).toNat : Int) = max 0 ((16711680 - (amount.toNat : Int)) / 131072) := by
  have hn : conNumerator 127 amount = (2 * 127 - 255) * (amount.toNat : Int) + 16711680 := rfl
  rw [con_toNat, hn]
  omega

/-- Just above the middle, 127.5, `N / 2^17` is 127.5 plus half the amount. -/
theorem con_128_toNat (amount : Word) :
    ((con 128 amount).toNat : Int) = min 255 ((16711680 + (amount.toNat : Int)) / 131072) := by
  have hn : conNumerator 128 amount = (2 * 128 - 255) * (amount.toNat : Int) + 16711680 := rfl
  rw [con_toNat, hn]
  omega

/-- R73 (a). -/
theorem con_one (v : Byte) : con v 0x00010000 = v := by
  have hn : conNumerator v 0x00010000 = (2 * (v.toNat : Int) - 255) * 65536 + 16711680 := rfl
  have hc := con_toNat v 0x00010000
  apply BitVec.eq_of_toNat_eq
  omega

/-- R73 (c). -/
theorem con_smallest (v : Byte) : (con v 0x00000001).toNat = 127 := by
  have hn : conNumerator v 0x00000001 = (2 * (v.toNat : Int) - 255) * 1 + 16711680 := rfl
  have hc := con_toNat v 0x00000001
  omega

/-- R73 (b): by monotonicity it is enough to saturate at 127 and at 128. -/
theorem con_saturates (v : Byte) {amount : Word} (ha : 0x00FF0000 ≤ amount.toNat) :
    con v amount = if v.toNat ≤ 127 then 0 else 255 := by
  split
  next hv =>
    have hle : (con v amount).toNat ≤ (con 127 amount).toNat := con_mono (w := 127) hv amount
    have hpivot := con_127_toNat amount
    refine BitVec.eq_of_toNat_eq (y := 0) ?_
    change _ = 0
    omega
  next hv =>
    have hle : (con 128 amount).toNat ≤ (con v amount).toNat := con_mono (v := 128) (not_le.1 hv) amount
    have hpivot := con_128_toNat amount
    refine BitVec.eq_of_toNat_eq (y := 255) ?_
    change _ = 255
    omega

/-- R73 (e), from 1.0 up. -/
theorem con_pivot_of_ge_one {amount : Word} (ha : 0x00010000 ≤ amount.toNat) :
    con 127 amount ≤ 127 ∧ 128 ≤ con 128 amount := by
  have hlo := con_127_toNat amount
  have hhi := con_128_toNat amount
  have h127 : (con 127 amount).toNat ≤ 127 := by omega
  have h128 : 128 ≤ (con 128 amount).toNat := by omega
  exact ⟨h127, h128⟩

/-- R73 (e), below 1.0: both values are the truncation of a number between 127 and 128. -/
theorem con_pivot_of_lt_one {amount : Word} (ha : amount.toNat < 0x00010000) :
    con 127 amount = 127 ∧ con 128 amount = 127 := by
  have hlo := con_127_toNat amount
  have hhi := con_128_toNat amount
  have h127 : (con 127 amount).toNat = 127 := by omega
  have h128 : (con 128 amount).toNat = 127 := by omega
  exact ⟨BitVec.eq_of_toNat_eq h127, BitVec.eq_of_toNat_eq h128⟩

/-- Settles O49: each clause from the integer form, saturation through monotonicity. -/
theorem contrastAmountProperties : Obligations.ContrastAmountProperties :=
  ⟨con_one, fun v _ => con_saturates v, con_smallest, fun _ _ amount h => con_mono h amount,
    fun _ => con_pivot_of_ge_one, fun _ _ => con_pivot_of_lt_one, fun _ _ => rfl⟩

end Sys2Proof.Machine
end

section
/-! PROOFS. What a statement about one command is assembled from, and CONTRAST and the frame of the slot-writing commands with it
(R53, R71, R113). -/

namespace Sys2Proof.Machine

/-! ### Command words, faults and written slots -/

/-- The word of R45 is the word that R53 puts together from the opcode and the shifted slots. -/
theorem commandWord_eq_scriptWord (opc : BitVec 8) (rd rs : SlotNum) :
    commandWord opc rd rs = scriptWord (opc.setWidth 32) rd rs := by
  have hopc : opc.toNat < 2 ^ 8 := opc.isLt
  have hlow : rd.val <<< 8 + opc.toNat < 2 ^ 12 := by omega
  have hscript : (scriptWord (opc.setWidth 32) rd rs).toNat = (opc.toNat ||| rd.val <<< 8) ||| rs.val <<< 12 := by
    have hc : opc.toNat % 2 ^ 32 = opc.toNat := Nat.mod_eq_of_lt (by omega)
    have hd : (rd.val % 2 ^ 32) <<< 8 % 2 ^ 32 = rd.val <<< 8 := by omega
    have hs : (rs.val % 2 ^ 32) <<< 12 % 2 ^ 32 = rs.val <<< 12 := by omega
    simp only [scriptWord, BitVec.toNat_or, BitVec.toNat_shiftLeft, BitVec.toNat_ofNat,
      BitVec.toNat_setWidth, hc, hd, hs]
  apply BitVec.eq_of_toNat_eq
  rw [hscript, Nat.or_comm opc.toNat, ← Nat.shiftLeft_add_eq_or_of_lt hopc, Nat.or_comm,
    ← Nat.shiftLeft_add_eq_or_of_lt hlow, commandWord_toNat]
  omega

/-- Taking a fault is all that `Raises` says (R113). -/
theorem raises_of_exec {i : Instr} {c : Cause} {s : State} (h : exec i s = raiseIn i c s) : Raises i c s :=
  ⟨raiseFault (encode i) c s, h, rfl, rfl, rfl, fun _ => rfl, ⟨rfl, rfl, rfl, rfl, rfl⟩, rfl, rfl, rfl⟩

theorem onlySlotChanges_setSlot (s : State) (rd : SlotNum) (b : Option Buffer) :
    OnlySlotChanges rd s (s.setSlot rd b) :=
  ⟨fun _ hn => slot_setSlot_other s b hn, ⟨rfl, rfl, rfl, rfl, rfl⟩, ⟨rfl, rfl, rfl⟩, rfl, rfl, rfl⟩

theorem mapSamples_sampleWise {rel : Sample → Sample → Prop} {f : Sample → Sample} (h : ∀ p, rel p (f p)) {b : Buffer}
    (wf : b.WF) : SampleWise rel b (b.mapSamples f) := by
  refine ⟨mapSamples_wf f wf, rfl, fun x y hin => ?_⟩
  obtain ⟨p, hp⟩ := exists_pxRead? wf hin
  exact ⟨p, f p, hp, by rw [pxRead?_mapSamples, hp, Option.map_some], h p⟩

/-! ### CONTRAST (R71) -/

theorem execContrast_of_source_free {rd rs : SlotNum} {s : State} (hs : s.slot rs = none) :
    execContrast rd rs s = raiseIn (.contrast rd rs) .slotInvalid s := by
  simp only [execContrast, hs]

theorem execContrast_of_occupied {rd rs : SlotNum} {s : State} {src b : Buffer} (hs : s.slot rs = some src)
    (hd : s.slot rd = some b) : execContrast rd rs s = raiseIn (.contrast rd rs) .slotOccupied s := by
  simp only [execContrast, hs, hd]

theorem execContrast_of_zero {rd rs : SlotNum} {s : State} {src : Buffer} (hs : s.slot rs = some src)
    (hd : s.slot rd = none) (ha : s.amount = 0) :
    execContrast rd rs s = raiseIn (.contrast rd rs) .badAmount s := by
  simp only [execContrast, hs, hd, if_pos ha]

theorem execContrast_makes {rd rs : SlotNum} {s : State} {src : Buffer} (hs : s.slot rs = some src)
    (hd : s.slot rd = none) (ha : s.amount ≠ 0) :
    execContrast rd rs s = .next (s.setSlot rd (some (src.mapSamples (contrastSample s.amount)))) := by
  simp only [execContrast, hs, hd, if_neg ha]
  exact produce_makes hs hd

/-- Settles O36: the three tests case by case, then the map of `con`, which is the formula on every channel. -/
theorem contrastScalesAboutTheMiddle : Obligations.ContrastScalesAboutTheMiddle := by
  intro rd rs s con hcon
  have channel (v : Byte) : (Machine.con v s.amount).toNat = con v.toNat :=
    (con_eq_clampToByte v s.amount).trans (hcon v.toNat).symm
  refine ⟨commandWord_eq_scriptWord 0x11 rd rs, fun v _ => ?_, ⟨fun hs => ?_, fun src b hs hd => ?_⟩,
    fun src hs hd ha => ?_, fun src hs wf hd ha => ?_⟩
  · rw [hcon, clampToByte_contrastFormula]
  · exact raises_of_exec (execContrast_of_source_free hs)
  · exact raises_of_exec (execContrast_of_occupied hs hd)
  · exact raises_of_exec (execContrast_of_zero hs hd ha)
  · exact ⟨_, _, execContrast_makes hs hd ha, onlySlotChanges_setSlot s rd _, slot_setSlot_same s rd _,
      mapSamples_sampleWise (fun p => ⟨channel p.r, channel p.g, channel p.b, rfl⟩) wf⟩

/-! ### The frame of the commands that write a slot as a whole (R113) -/

/-- A command that loads no operand register takes one of its faults or writes the slot its `RD` field names. -/
theorem exec_raises_or_writes {i : Instr} {s t : State} (hb : ∀ rs, i ≠ .getb rs) (hp : ∀ rs, i ≠ .getpx rs)
    (h : exec i s = .next t) :
    (∃ c ∈ causesOf i, t = raiseFault (encode i) c s) ∨ ∃ b, t = s.setSlot (rdOperand i) b := by
  have e := exec_effect i s
  rw [h] at e
  cases e with
  | raises hc => exact .inl ⟨_, hc, rfl⟩
  | writes hw => exact .inr ⟨_, by rw [hw.slot_eq]⟩
  | loadsBounds hi => exact absurd hi (hb _)
  | loadsSample hi => exact absurd hi (hp _)

/-- Settles O53: each of the seven takes one of its faults, which touches no slot, or writes slot `rd` and nothing else. -/
theorem slotWritingCommandsFrame : Obligations.SlotWritingCommandsFrame := by
  intro rd rs i s t hi h
  obtain ⟨hb, hp, rfl⟩ : (∀ n, i ≠ .getb n) ∧ (∀ n, i ≠ .getpx n) ∧ rdOperand i = rd := by
    simp only [List.mem_cons, List.not_mem_nil, or_false] at hi
    obtain rfl | rfl | rfl | rfl | rfl | rfl | rfl := hi <;> exact ⟨nofun, nofun, rfl⟩
  obtain ⟨c, hc, rfl⟩ | ⟨b, rfl⟩ := exec_raises_or_writes hb hp h
  · exact ⟨⟨rfl, rfl, rfl, rfl, rfl⟩, ⟨rfl, rfl, rfl⟩, fun _ _ => rfl, fun _ _ _ _ => rfl,
      .inr ⟨rfl, ⟨c, hc, rfl⟩, rfl, rfl⟩⟩
  · obtain ⟨hslots, hregs, hstatus, hhost⟩ := onlySlotChanges_setSlot s (rdOperand i) b
    exact ⟨hregs, hhost, hslots, fun n x y hn => sample?_of_slot_eq (hslots n hn) x y, .inl hstatus⟩

end Sys2Proof.Machine
end

section
/-! PROOFS. Raster loops as one pass over the coordinates, and the map over the table as such a loop (R8, R70). -/

namespace Sys2Proof.Machine

/-! ### A buffer is determined by its samples -/

/-- The coordinate that column `k` and row `r` of the table stand for. -/
theorem inBounds_of_lt {q : Bounds} {r k : Nat} (hr : r < q.height) (hk : k < q.width) :
    q.InBounds (q.minX.toInt + k) (q.minY.toInt + r) := by
  rw [Bounds.height] at hr
  rw [Bounds.width] at hk
  omega

/-- The sample table read through `PxRead`. -/
theorem pxRead?_of_table {b : Buffer} {r k : Nat} (hr : r < b.bounds.height) (hk : k < b.bounds.width) :
    b.pxRead? (b.bounds.minX.toInt + k) (b.bounds.minY.toInt + r) = b.rows[r]?.bind (·[k]?) := by
  have hrow : b.bounds.row (b.bounds.minY.toInt + r) = r := by rw [Bounds.row]; omega
  have hcol : b.bounds.col (b.bounds.minX.toInt + k) = k := by rw [Bounds.col]; omega
  rw [Buffer.pxRead?, if_pos (inBounds_of_lt hr hk), hrow, hcol]
  cases b.rows[r]? <;> rfl

/-- Well-formed buffers with the same bounds and the same samples are equal (R11, R12). -/
theorem eq_of_pxRead?_eq {b c : Buffer} (hb : b.WF) (hc : c.WF) (bounds : b.bounds = c.bounds)
    (reads : ∀ x y, b.bounds.InBounds x y → b.pxRead? x y = c.pxRead? x y) : b = c := by
  obtain ⟨q, rows⟩ := b
  obtain ⟨q', rows'⟩ := c
  obtain rfl : q = q' := bounds
  obtain ⟨-, hlen, hwidth⟩ := hb
  obtain ⟨-, hlen', hwidth'⟩ := hc
  refine congrArg (Buffer.mk q) (List.ext_getElem (hlen.trans hlen'.symm) fun r hr hr' => ?_)
  have hcells := hwidth _ (List.getElem_mem hr)
  have hcells' := hwidth' _ (List.getElem_mem hr')
  refine List.ext_getElem (hcells.trans hcells'.symm) fun k hk hk' => ?_
  have hrow : r < q.height := hr.trans_eq hlen
  have hcol : k < q.width := hk.trans_eq hcells
  have h := reads _ _ (inBounds_of_lt hrow hcol)
  rw [pxRead?_of_table (b := ⟨q, rows⟩) hrow hcol, pxRead?_of_table (b := ⟨q, rows'⟩) hrow hcol] at h
  simpa [hr, hr', hk, hk'] using h

/-! ### The coordinates of a raster loop -/

theorem mem_intsFrom {lo hi n : Int} : n ∈ intsFrom lo hi ↔ lo ≤ n ∧ n < hi := by
  simp only [intsFrom, List.mem_map, List.mem_range]
  constructor
  · rintro ⟨k, hk, rfl⟩
    omega
  · intro h
    exact ⟨(n - lo).toNat, by omega, by omega⟩

/-- The coordinates within bounds, in raster order (R8). -/
def rasterCoords (q : Bounds) : List (Int × Int) :=
  (intsFrom q.minY.toInt q.maxY.toInt).flatMap fun y => (intsFrom q.minX.toInt q.maxX.toInt).map fun x => (x, y)

theorem mem_rasterCoords {q : Bounds} {x y : Int} : (x, y) ∈ rasterCoords q ↔ q.InBounds x y := by
  simp only [rasterCoords, List.mem_flatMap, List.mem_map, mem_intsFrom, Prod.mk.injEq]
  constructor
  · rintro ⟨y', hy, x', hx, rfl, rfl⟩
    exact ⟨hx, hy⟩
  · rintro ⟨hx, hy⟩
    exact ⟨y, hy, x, hx, rfl, rfl⟩

/-- The two nested loops are one loop over the coordinates. -/
theorem rasterFold_eq_foldl (q : Bounds) (visit : Buffer → Int → Int → Buffer) (start : Buffer) :
    rasterFold q visit start = (rasterCoords q).foldl (fun d c => visit d c.1 c.2) start := by
  simp only [rasterFold, rasterCoords, List.foldl_flatMap, List.foldl_map]

/-! ### The loops of `Pointwise` -/

/-- The body of R70's loops at one coordinate. -/
def pointwiseVisit (f : Sample → Sample) (src d : Buffer) (x y : Int) : Buffer :=
  match src.pxRead? x y with
  | some p => d.pxWrite x y (f p)
  | none => d

theorem pointwiseRaster_eq_foldl (f : Sample → Sample) (src : Buffer) :
    pointwiseRaster f src =
      (rasterCoords src.bounds).foldl (fun d c => pointwiseVisit f src d c.1 c.2) (newBuffer src.bounds) :=
  rasterFold_eq_foldl src.bounds (pointwiseVisit f src) _

theorem pointwiseVisit_shape {f : Sample → Sample} {src d : Buffer} (hd : d.WF ∧ d.bounds = src.bounds) (x y : Int) :
    (pointwiseVisit f src d x y).WF ∧ (pointwiseVisit f src d x y).bounds = src.bounds := by
  obtain ⟨wf, hb⟩ := hd
  unfold pointwiseVisit
  split
  · exact ⟨pxWrite_wf wf _ _ _, by rwa [pxWrite_bounds]⟩
  · exact ⟨wf, hb⟩

/-- A visit gives its own coordinate the mapped sample, and takes it from no coordinate that has it. -/
theorem pxRead?_pointwiseVisit {f : Sample → Sample} {src d : Buffer} (hd : d.WF ∧ d.bounds = src.bounds)
    {c : Int × Int} {x y : Int} {p : Sample} (hp : src.pxRead? x y = some p)
    (h : (x, y) = c ∨ d.pxRead? x y = some (f p)) :
    (pointwiseVisit f src d c.1 c.2).pxRead? x y = some (f p) := by
  obtain ⟨wf, hb⟩ := hd
  by_cases hc : (x, y) = c
  · subst hc
    simp only [pointwiseVisit, hp]
    exact pxRead?_pxWrite_same wf (hb ▸ inBounds_of_pxRead? hp) _
  · have hold : d.pxRead? x y = some (f p) := h.resolve_left hc
    unfold pointwiseVisit
    split
    · exact (pxRead?_pxWrite_other _ fun ⟨hx, hy⟩ => hc (Prod.ext hx hy)).trans hold
    · exact hold

/-- After a loop over `coords`, every coordinate visited, or mapped before, reads as the mapped sample. -/
theorem pxRead?_foldl_pointwiseVisit {f : Sample → Sample} {src : Buffer} {x y : Int} {p : Sample}
    (hp : src.pxRead? x y = some p) (coords : List (Int × Int)) {d : Buffer} (hd : d.WF ∧ d.bounds = src.bounds)
    (h : (x, y) ∈ coords ∨ d.pxRead? x y = some (f p)) :
    (coords.foldl (fun d c => pointwiseVisit f src d c.1 c.2) d).pxRead? x y = some (f p) := by
  induction coords generalizing d with
  | nil => exact h.resolve_left List.not_mem_nil
  | cons c coords ih =>
    rw [List.mem_cons, or_assoc] at h
    refine ih (pointwiseVisit_shape hd c.1 c.2) ?_
    obtain hc | hmem | hread := h
    · exact .inr (pxRead?_pointwiseVisit hd hp (.inl hc))
    · exact .inl hmem
    · exact .inr (pxRead?_pointwiseVisit hd hp (.inr hread))

theorem pointwiseRaster_shape (f : Sample → Sample) {src : Buffer} (wf : src.WF) :
    (pointwiseRaster f src).WF ∧ (pointwiseRaster f src).bounds = src.bounds := by
  rw [pointwiseRaster_eq_foldl]
  exact List.foldlRecOn (motive := fun d : Buffer => d.WF ∧ d.bounds = src.bounds) _ _
    ⟨newBuffer_wf wf.1, rfl⟩ fun d hd c _ => pointwiseVisit_shape hd c.1 c.2

theorem pxRead?_pointwiseRaster (f : Sample → Sample) {src : Buffer} (wf : src.WF) {x y : Int} {p : Sample}
    (hp : src.pxRead? x y = some p) : (pointwiseRaster f src).pxRead? x y = some (f p) := by
  rw [pointwiseRaster_eq_foldl]
  exact pxRead?_foldl_pointwiseVisit hp _ ⟨newBuffer_wf wf.1, rfl⟩ (.inl (mem_rasterCoords.2 (inBounds_of_pxRead? hp)))

/-- Settles O40: the loops visit every coordinate within the bounds, and a buffer is determined by its samples there. -/
theorem pointwiseIsTheRasterPseudocode : Obligations.PointwiseIsTheRasterPseudocode := by
  intro f src wf
  obtain ⟨hwf, hbounds⟩ := pointwiseRaster_shape f wf
  refine eq_of_pxRead?_eq (mapSamples_wf f wf) hwf hbounds.symm fun x y hin => ?_
  obtain ⟨p, hp⟩ := exists_pxRead? wf hin
  rw [pxRead?_mapSamples, hp, pxRead?_pointwiseRaster f wf hp, Option.map_some]

end Sys2Proof.Machine
end

section
/-! PROOFS. What `produce` does in a statement about one command, and GRAY with its sample function (R70, R76, R77). -/

namespace Sys2Proof.Machine

/-! ### The tests and the result of a command that makes one slot from another -/

theorem produce_of_source_free {i : Instr} {rd rs : SlotNum} {make : Buffer → Buffer} {s : State}
    (hs : s.slot rs = none) : produce i rd rs make s = raiseIn i .slotInvalid s := by
  simp only [produce, hs]

theorem produce_of_occupied {i : Instr} {rd rs : SlotNum} {make : Buffer → Buffer} {s : State} {src b : Buffer}
    (hs : s.slot rs = some src) (hd : s.slot rd = some b) : produce i rd rs make s = raiseIn i .slotOccupied s := by
  simp only [produce, hs, hd]

theorem sourceThenDestination_of_produce {i : Instr} {rd rs : SlotNum} {make : Buffer → Buffer} {s : State}
    (h : exec i s = produce i rd rs make s) : SourceThenDestination i rd rs s :=
  ⟨fun hs => raises_of_exec (h.trans (produce_of_source_free hs)),
    fun _ _ hs hd => raises_of_exec (h.trans (produce_of_occupied hs hd))⟩

theorem stores_sampleWise_of_pointwise {i : Instr} {rd rs : SlotNum} {f : Sample → Sample} {s : State}
    {rel : Sample → Sample → Prop} (h : exec i s = pointwise i rd rs f s) (hrel : ∀ p, rel p (f p)) {src : Buffer}
    (hs : s.slot rs = some src) (wf : src.WF) (hd : s.slot rd = none) :
    ∃ t d, exec i s = .next t ∧ OnlySlotChanges rd s t ∧ t.slot rd = some d ∧ SampleWise rel src d :=
  ⟨_, _, h.trans (produce_makes hs hd), onlySlotChanges_setSlot s rd _, slot_setSlot_same s rd _,
    mapSamples_sampleWise hrel wf⟩

/-! ### GRAY (R76) -/

theorem exec_gray (rd rs : SlotNum) (s : State) :
    exec (.gray rd rs) s = pointwise (.gray rd rs) rd rs graySample s :=
  rfl

/-- Settles O37: GRAY is `Pointwise` with the luminance byte, whose integer form holds at every sample. -/
theorem grayStoresTheLuminance : Obligations.GrayStoresTheLuminance := fun rd rs s =>
  ⟨commandWord_eq_scriptWord 0x12 rd rs, sourceThenDestination_of_produce (exec_gray rd rs s), fun _ hs wf hd =>
    stores_sampleWise_of_pointwise (exec_gray rd rs s) (fun p => ⟨gray_toNat p.r p.g p.b, rfl, rfl, rfl⟩) hs wf hd⟩

/-! ### GRAY's sample function (R77) -/

/-- The weights sum to 10000, so the division is exact on a grey sample. -/
theorem gray_grey (v : Byte) : gray v v v = v := by
  apply BitVec.eq_of_toNat_eq
  rw [gray_toNat]
  omega

theorem graySample_grey (v a : Byte) : graySample ⟨v, v, v, a⟩ = ⟨v, v, v, a⟩ := by
  simp only [graySample, gray_grey]

theorem graySample_idem (p : Sample) : graySample (graySample p) = graySample p :=
  graySample_grey (gray p.r p.g p.b) p.a

theorem gray_primaries : gray 255 0 0 = 54 ∧ gray 0 255 0 = 182 ∧ gray 0 0 255 = 18 := by
  decide

/-- Settles O50: (b) follows from (a), since a result of GRAY is grey. -/
theorem grayProperties : Obligations.GrayProperties :=
  ⟨graySample_grey, graySample_idem, fun _ => ⟨rfl, rfl⟩, fun _ => gray_primaries⟩

end Sys2Proof.Machine
end

section
/-! PROOFS. INVERT and its sample function, which undoes itself (R67, R81, R82). -/

namespace Sys2Proof.Machine

/-! ### INVERT (R81) -/

theorem exec_invert (rd rs : SlotNum) (s : State) :
    exec (.invert rd rs) s = pointwise (.invert rd rs) rd rs invertSample s :=
  rfl

/-- The difference is a byte (R67). -/
theorem inv_toNat (v : Byte) : (inv v).toNat = 255 - v.toNat :=
  Nat.mod_eq_of_lt (Nat.lt_succ_of_le (Nat.sub_le 255 v.toNat))

/-- Settles O38: INVERT is `Pointwise` with the difference from 255 in each of R, G and B. -/
theorem invertSubtractsFrom255 : Obligations.InvertSubtractsFrom255 := fun rd rs s =>
  ⟨commandWord_eq_scriptWord 0x13 rd rs, sourceThenDestination_of_produce (exec_invert rd rs s), fun _ hs wf hd =>
    stores_sampleWise_of_pointwise (exec_invert rd rs s)
      (fun p => ⟨inv_toNat p.r, inv_toNat p.g, inv_toNat p.b, rfl⟩) hs wf hd⟩

/-! ### INVERT twice (R82) -/

/-- No byte is above 255, so the two differences cancel. -/
theorem inv_involutive : Function.Involutive inv := by
  intro v
  apply BitVec.eq_of_toNat_eq
  have hv : v.toNat < 256 := v.isLt
  rw [inv_toNat, inv_toNat]
  omega

theorem invertSample_involutive : Function.Involutive invertSample := fun p => by
  simp only [invertSample, inv_involutive _]

theorem mapSamples_involutive {f : Sample → Sample} (h : Function.Involutive f) :
    Function.Involutive (Buffer.mapSamples f) := by
  have hcells : Function.Involutive (List.map f) := fun cells => by
    rw [List.map_map, h.comp_self, List.map_id]
  intro b
  simp only [Buffer.mapSamples, List.map_map, hcells.comp_self, List.map_id]

theorem exec_invert_makes {rd rs : SlotNum} {s : State} {src : Buffer} (hs : s.slot rs = some src)
    (hd : s.slot rd = none) :
    exec (.invert rd rs) s = .next (s.setSlot rd (some (src.mapSamples invertSample))) :=
  produce_makes hs hd

/-- Settles O51: both commands find their source valid and their destination free, and the second map undoes the first. The
slots `m` and `n` were free, so neither is `a`. -/
theorem invertTwiceIsTheOriginal : Obligations.InvertTwiceIsTheOriginal := by
  intro a m n s b ha hm hn hmn
  have ham : a ≠ m := by rintro rfl; cases ha.symm.trans hm
  have han : a ≠ n := by rintro rfl; cases ha.symm.trans hn
  have htm := slot_setSlot_same s m (some (b.mapSamples invertSample))
  have htn := (slot_setSlot_other s (some (b.mapSamples invertSample)) hmn.symm).trans hn
  refine ⟨_, _, exec_invert_makes ha hm, exec_invert_makes htm htn, ?_, ?_⟩
  · rw [slot_setSlot_same, mapSamples_involutive invertSample_involutive b]
  · rw [slot_setSlot_other _ _ han, slot_setSlot_other _ _ ham, ha]

end Sys2Proof.Machine
end

section
/-! PROOFS. What one kernel position of MBLUR does to a row, and what a blurred row keeps (R87, R89 to R91, R93). -/

namespace Sys2Proof.Machine

/-! ### Loops that change one entry after another -/

/-- A loop over `m` consecutive entries, each changed once. -/
theorem getElem?_foldl_modify {α : Type} (f : Nat → α → α) (pos m : Nat) (l : List α) (n : Nat) :
    ((List.range m).foldl (fun l j => l.modify (pos + j) (f j)) l)[n]? =
      if pos ≤ n ∧ n < pos + m then l[n]?.map (f (n - pos)) else l[n]? := by
  induction m with
  | zero => rw [if_neg (by omega)]; rfl
  | succ m ih =>
    rw [List.range_succ, List.foldl_append, List.foldl_cons, List.foldl_nil, List.getElem?_modify, ih]
    by_cases hn : pos + m = n
    · subst hn
      rw [if_neg (by omega), if_pos (by omega), Nat.add_sub_cancel_left]
      simp
    · have same : n < pos + (m + 1) ↔ n < pos + m := by omega
      simp only [if_neg hn, same]
      exact id_map _

/-- A loop that changes every entry once is a map. -/
theorem foldl_modify_eq_map {α : Type} (f : α → α) (l : List α) :
    (List.range l.length).foldl (fun l j => l.modify j f) l = l.map f := by
  refine List.ext_getElem? fun n => ?_
  have h := getElem?_foldl_modify (fun _ => f) 0 l.length l n
  simp only [Nat.zero_add, Nat.zero_le, true_and] at h
  rw [h, List.getElem?_map]
  split
  · rfl
  · rw [List.getElem?_eq_none (by omega), Option.map_none]

/-! ### One kernel position (R86, R89) -/

theorem smearAt_eq_modify (k : Sample) (i : Nat) (cells : List Sample) (j : Nat) :
    smearAt k i cells j = cells.modify (i + j) (smearSample · k j) := by
  rw [List.modify_eq_set_getElem?, smearAt]
  cases cells[i + j]? <;> rfl

theorem blurFrom_of_none {cells : List Sample} {i : Nat} (h : cells[i]? = none) : blurFrom cells i = cells := by
  simp only [blurFrom, h]

/-- A kernel position changes the 99 columns after it, each by its distance, and no other. -/
theorem getElem?_blurFrom {cells : List Sample} {i : Nat} {k : Sample} (hk : cells[i]? = some k) (n : Nat) :
    (blurFrom cells i)[n]? =
      if i + 1 ≤ n ∧ n < i + 1 + 99 then cells[n]?.map (smearSample · k (n - (i + 1) + 1)) else cells[n]? := by
  rw [← getElem?_foldl_modify (fun j t => smearSample t k (j + 1)) (i + 1) 99 cells n]
  simp only [blurFrom, hk, blurOffsets, List.foldl_map, smearAt_eq_modify, Config.blurTaps, Nat.add_right_comm i 1,
    Nat.add_assoc]

/-! ### What a blurred row keeps (R90, R91) -/

/-- No channel darker, and the same alpha. -/
def Brightens (p q : Sample) : Prop := p.r ≤ q.r ∧ p.g ≤ q.g ∧ p.b ≤ q.b ∧ q.a = p.a

theorem Brightens.refl (p : Sample) : Brightens p p := ⟨BitVec.le_refl _, BitVec.le_refl _, BitVec.le_refl _, rfl⟩

theorem Brightens.trans {p q u : Sample} (h : Brightens p q) (h' : Brightens q u) : Brightens p u := by
  obtain ⟨hr, hg, hb, ha⟩ := h
  obtain ⟨hr', hg', hb', ha'⟩ := h'
  exact ⟨BitVec.le_trans hr hr', BitVec.le_trans hg hg', BitVec.le_trans hb hb', ha'.trans ha⟩

theorem brightens_smearSample (t k : Sample) (j : Nat) : Brightens t (smearSample t k j) :=
  ⟨le_wadd t.r k.r j, le_wadd t.g k.g j, le_wadd t.b k.b j, rfl⟩

theorem exists_blurFrom_brightens {cells : List Sample} {n : Nat} {p : Sample} (hp : cells[n]? = some p) (i : Nat) :
    ∃ q, (blurFrom cells i)[n]? = some q ∧ Brightens p q := by
  cases hk : cells[i]? with
  | none => exact ⟨p, by rw [blurFrom_of_none hk, hp], .refl p⟩
  | some k =>
    rw [getElem?_blurFrom hk, hp]
    split
    · exact ⟨_, rfl, brightens_smearSample p k _⟩
    · exact ⟨p, rfl, .refl p⟩

theorem exists_blurRow_brightens {cells : List Sample} {n : Nat} {p : Sample} (hp : cells[n]? = some p) :
    ∃ q, (blurRow cells)[n]? = some q ∧ Brightens p q :=
  List.foldlRecOn (motive := fun row : List Sample => ∃ q, row[n]? = some q ∧ Brightens p q) _ _
    ⟨p, hp, .refl p⟩ fun _ ⟨_, hq, hpq⟩ i _ =>
      let ⟨u, hu, hqu⟩ := exists_blurFrom_brightens hq i
      ⟨u, hu, hpq.trans hqu⟩

/-- Column 0 is after no kernel position. -/
theorem getElem?_zero_blurFrom (cells : List Sample) (i : Nat) : (blurFrom cells i)[0]? = cells[0]? := by
  cases hk : cells[i]? with
  | none => rw [blurFrom_of_none hk]
  | some k => rw [getElem?_blurFrom hk, if_neg (by omega)]

theorem getElem?_zero_blurRow (cells : List Sample) : (blurRow cells)[0]? = cells[0]? :=
  List.foldlRecOn (motive := fun row : List Sample => row[0]? = cells[0]?) _ _ rfl fun row h i _ =>
    (getElem?_zero_blurFrom row i).trans h

/-- A row of at most one sample has column 0 only (R87). -/
theorem blurRow_of_length_le_one {cells : List Sample} (h : cells.length ≤ 1) : blurRow cells = cells := by
  refine List.ext_getElem? fun n => ?_
  cases n with
  | zero => exact getElem?_zero_blurRow cells
  | succ n => rw [List.getElem?_eq_none (by rw [blurRow_length]; omega), List.getElem?_eq_none (by omega)]

/-! ### The fold over one channel (R93) -/

/-- The body of R93's outer loop. -/
def channelVisit (row : List Byte) (i : Nat) : List Byte :=
  (List.range (min 99 (row.length - 1 - i))).foldl
    (fun cur n => cur.set (i + (n + 1)) (wadd (cur.getD (i + (n + 1)) 0) (row.getD i 0) (n + 1))) row

theorem blurChannel_eq_foldl (row : List Byte) : blurChannel row = (List.range row.length).foldl channelVisit row := rfl

theorem set_getD_eq_modify (row : List Byte) (n : Nat) (f : Byte → Byte) :
    row.set n (f (row.getD n 0)) = row.modify n f :=
  (List.modify_eq_set f n row).symm

theorem getElem?_channelVisit (row : List Byte) (i n : Nat) :
    (channelVisit row i)[n]? =
      if i + 1 ≤ n ∧ n < i + 1 + 99 then row[n]?.map (wadd · (row.getD i 0) (n - (i + 1) + 1)) else row[n]? := by
  have loop : channelVisit row i = (List.range (min 99 (row.length - 1 - i))).foldl
      (fun cur j => cur.modify (i + 1 + j) (wadd · (row.getD i 0) (j + 1))) row := by
    simp only [channelVisit, Nat.add_assoc, Nat.add_comm 1]
    exact congrArg (List.foldl · row _) (funext₂ fun cur j => set_getD_eq_modify cur _ (wadd · _ _))
  rw [loop, getElem?_foldl_modify (fun j t => wadd t (row.getD i 0) (j + 1))]
  by_cases hn : n < row.length
  · have clip : i + 1 ≤ n ∧ n < i + 1 + min 99 (row.length - 1 - i) ↔ i + 1 ≤ n ∧ n < i + 1 + 99 := by omega
    simp only [clip]
  · rw [List.getElem?_eq_none (by omega), Option.map_none, ite_self, ite_self]

/-- A channel that a smear updates by the weighted add is visited on its own. -/
theorem channelVisit_map {π : Sample → Byte} (hπ : ∀ t k j, π (smearSample t k j) = wadd (π t) (π k) j)
    (cells : List Sample) (i : Nat) : channelVisit (cells.map π) i = (blurFrom cells i).map π := by
  refine List.ext_getElem? fun n => ?_
  rw [getElem?_channelVisit, List.getElem?_map, List.getElem?_map]
  cases hk : cells[i]? with
  | none =>
    have hi : cells.length ≤ i := List.getElem?_eq_none_iff.1 hk
    rw [blurFrom_of_none hk]
    split
    · rw [List.getElem?_eq_none (by omega), Option.map_none, Option.map_none]
    · rfl
  | some k =>
    have hkernel : (cells.map π).getD i 0 = π k := by
      rw [List.getD_eq_getElem?_getD, List.getElem?_map, hk, Option.map_some, Option.getD_some]
    rw [getElem?_blurFrom hk, hkernel]
    split
    · rw [Option.map_map, Option.map_map]
      exact congrArg (Option.map · _) (funext fun t => (hπ t k _).symm)
    · rfl

theorem map_blurRow {π : Sample → Byte} (hπ : ∀ t k j, π (smearSample t k j) = wadd (π t) (π k) j)
    (cells : List Sample) : (blurRow cells).map π = blurChannel (cells.map π) := by
  rw [blurChannel_eq_foldl, List.length_map]
  exact (List.foldl_hom (List.map π) (channelVisit_map hπ)).symm

theorem map_alpha_blurRow (cells : List Sample) : (blurRow cells).map (·.a) = cells.map (·.a) := by
  refine List.ext_getElem? fun n => ?_
  rw [List.getElem?_map, List.getElem?_map]
  cases hp : cells[n]? with
  | none => rw [List.getElem?_eq_none (by simpa using hp)]
  | some p =>
    obtain ⟨q, hq, -, -, -, ha⟩ := exists_blurRow_brightens hp
    rw [hq, Option.map_some, Option.map_some, ha]

/-- Settles O41: a smear is the weighted add on each of R, G and B by itself, so each of their rows is folded by itself. -/
theorem blurredRowIsAFoldPerChannel : Obligations.BlurredRowIsAFoldPerChannel := fun cells =>
  ⟨map_blurRow (fun _ _ _ => rfl) cells, map_blurRow (fun _ _ _ => rfl) cells, map_blurRow (fun _ _ _ => rfl) cells,
    map_alpha_blurRow cells⟩

end Sys2Proof.Machine
end

section
/-! PROOFS. MBLUR as a command: the buffer it stores, read row by row (R86 to R88, R90, R91). -/

namespace Sys2Proof.Machine

theorem exec_mblur (rd rs : SlotNum) (s : State) :
    exec (.mblur rd rs) s = produce (.mblur rd rs) rd rs Buffer.motionBlur s :=
  rfl

theorem exec_mblur_makes {rd rs : SlotNum} {s : State} {src : Buffer} (hs : s.slot rs = some src)
    (hd : s.slot rd = none) : exec (.mblur rd rs) s = .next (s.setSlot rd (some src.motionBlur)) :=
  produce_makes hs hd

/-! ### Reading a row -/

/-- `PxRead` within the bounds is two lookups in the table. -/
theorem pxRead?_of_inBounds {b : Buffer} {x y : Int} (h : b.bounds.InBounds x y) :
    b.pxRead? x y = b.rows[b.bounds.row y]?.bind (·[b.bounds.col x]?) := by
  rw [Buffer.pxRead?, if_pos h]
  cases b.rows[b.bounds.row y]? <;> rfl

theorem pxRead?_motionBlur {b : Buffer} {x y : Int} (h : b.bounds.InBounds x y) :
    b.motionBlur.pxRead? x y =
      b.rows[b.bounds.row y]?.bind fun cells => (blurRow cells)[b.bounds.col x]? := by
  rw [pxRead?_of_inBounds (b := b.motionBlur) h, motionBlur_bounds, Buffer.motionBlur, List.getElem?_map]
  cases b.rows[b.bounds.row y]? <;> rfl

theorem motionBlur_sampleWise {b : Buffer} (wf : b.WF) : SampleWise Brightens b b.motionBlur := by
  refine ⟨motionBlur_wf wf, motionBlur_bounds b, fun x y hin => ?_⟩
  obtain ⟨p, hp⟩ := exists_pxRead? wf hin
  obtain ⟨cells, hcells, hcell⟩ := Option.bind_eq_some_iff.1 ((pxRead?_of_inBounds hin).symm.trans hp)
  obtain ⟨q, hq, hpq⟩ := exists_blurRow_brightens hcell
  exact ⟨p, q, hp, by rw [pxRead?_motionBlur hin, hcells, Option.bind_some, hq], hpq⟩

theorem pxRead?_motionBlur_minX (b : Buffer) (y : Int) :
    b.motionBlur.pxRead? b.bounds.minX.toInt y = b.pxRead? b.bounds.minX.toInt y := by
  by_cases hin : b.bounds.InBounds b.bounds.minX.toInt y
  · have hcol : b.bounds.col b.bounds.minX.toInt = 0 := by rw [Bounds.col]; omega
    simp only [pxRead?_motionBlur hin, pxRead?_of_inBounds hin, hcol, getElem?_zero_blurRow]
  · rw [pxRead?_outside hin, pxRead?_outside (b := b.motionBlur) hin]

/-- Settles O42: every kernel position only adds, and none reaches back to the first column. -/
theorem mblurNeverDarkens : Obligations.MblurNeverDarkens := fun rd _ s src hs wf hd =>
  ⟨_, _, exec_mblur_makes hs hd, slot_setSlot_same s rd _, motionBlur_sampleWise wf, pxRead?_motionBlur_minX src⟩

/-! ### Narrow buffers (R87) -/

theorem motionBlur_of_width_le_one {b : Buffer} (wf : b.WF) (h : b.bounds.width ≤ 1) : b.motionBlur = b := by
  obtain ⟨-, -, hwidth⟩ := wf
  have hrows : b.rows.map blurRow = b.rows :=
    (List.map_congr_left fun cells hc => blurRow_of_length_le_one ((hwidth cells hc).trans_le h)).trans
      (List.map_id' b.rows)
  rw [Buffer.motionBlur, hrows]

/-- Settles O43: rows of at most one sample are their own blur. -/
theorem mblurOfANarrowBufferIsACopy : Obligations.MblurOfANarrowBufferIsACopy := fun rd _ s src hs wf hw hd => by
  have makes := exec_mblur_makes hs hd
  rw [motionBlur_of_width_le_one wf hw] at makes
  exact ⟨_, makes, slot_setSlot_same s rd _, onlySlotChanges_setSlot s rd _⟩

/-! ### Rows by themselves (R88) -/

/-- Buffers that read alike along `y` have the same row in their tables. -/
theorem row_eq_of_pxRead?_eq {b c : Buffer} {y : Int} (hb : b.WF) (hc : c.WF) (bounds : b.bounds = c.bounds)
    (reads : ∀ x, b.pxRead? x y = c.pxRead? x y) (hy : b.bounds.minY.toInt ≤ y ∧ y < b.bounds.maxY.toInt) :
    b.rows[b.bounds.row y]? = c.rows[b.bounds.row y]? := by
  obtain ⟨q, rows⟩ := b
  obtain ⟨q', rows'⟩ := c
  obtain rfl : q = q' := bounds
  obtain ⟨-, hlen, hwidth⟩ := hb
  obtain ⟨-, hlen', hwidth'⟩ := hc
  obtain ⟨hmin, hmax⟩ : q.minY.toInt ≤ y ∧ y < q.maxY.toInt := hy
  have hr : q.row y < q.height := by rw [Bounds.row, Bounds.height]; omega
  have hrow : q.minY.toInt + q.row y = y := by rw [Bounds.row]; omega
  have hr₁ : q.row y < rows.length := hlen ▸ hr
  have hr₂ : q.row y < rows'.length := hlen' ▸ hr
  have hcells := hwidth _ (List.getElem_mem hr₁)
  have hcells' := hwidth' _ (List.getElem_mem hr₂)
  rw [List.getElem?_eq_getElem hr₁, List.getElem?_eq_getElem hr₂]
  refine congrArg some (List.ext_getElem (hcells.trans hcells'.symm) fun k hk hk' => ?_)
  have h := reads (q.minX.toInt + k)
  rw [← hrow, pxRead?_of_table (b := ⟨q, rows⟩) hr (hcells ▸ hk),
    pxRead?_of_table (b := ⟨q, rows'⟩) hr (hcells ▸ hk)] at h
  simpa [hr₁, hr₂, hk, hk'] using h

/-- Settles O44: the table row is the same in both buffers, and so is its blur. -/
theorem mblurRowsAreIndependent : Obligations.MblurRowsAreIndependent := by
  intro b c y hb hc bounds reads x
  by_cases hin : b.bounds.InBounds x y
  · have hin' : c.bounds.InBounds x y := bounds ▸ hin
    rw [pxRead?_motionBlur hin, pxRead?_motionBlur hin', row_eq_of_pxRead?_eq hb hc bounds reads hin.2, bounds]
  · rw [pxRead?_outside (b := b.motionBlur) hin, pxRead?_outside (b := c.motionBlur) (bounds ▸ hin)]

end Sys2Proof.Machine
end

section
/-! PROOFS. MBLUR's row-by-row blur is R86's pseudocode over `PxRead` and `PxWrite` (log entry 10). -/

namespace Sys2Proof.Machine

/-! ### A buffer with one row replaced -/

/-- `b` with `cells` as row `r` of its table. -/
def Buffer.withRow (b : Buffer) (r : Nat) (cells : List Sample) : Buffer := { b with rows := b.rows.set r cells }

@[simp] theorem withRow_bounds (b : Buffer) (r : Nat) (cells : List Sample) : (b.withRow r cells).bounds = b.bounds := rfl

theorem pxRead?_withRow {b : Buffer} {r : Nat} {cells : List Sample} (wf : b.WF) (hr : r < b.bounds.height)
    (hlen : cells.length = b.bounds.width) (i : Nat) :
    (b.withRow r cells).pxRead? (b.bounds.minX.toInt + i) (b.bounds.minY.toInt + r) = cells[i]? := by
  by_cases hi : i < b.bounds.width
  · refine (pxRead?_of_table (b := b.withRow r cells) hr hi).trans ?_
    rw [Buffer.withRow, List.getElem?_set_self (wf.2.1 ▸ hr), Option.bind_some]
  · rw [List.getElem?_eq_none (by omega)]
    refine pxRead?_outside fun hin => hi ?_
    have hcol := col_lt (q := b.bounds) hin
    rw [Bounds.col] at hcol
    omega

theorem pxWrite_withRow {b : Buffer} {r i : Nat} (cells : List Sample) (wf : b.WF) (hr : r < b.bounds.height)
    (hi : i < b.bounds.width) (p : Sample) :
    (b.withRow r cells).pxWrite (b.bounds.minX.toInt + i) (b.bounds.minY.toInt + r) p =
      b.withRow r (cells.set i p) := by
  have hrow : b.bounds.row (b.bounds.minY.toInt + r) = r := by rw [Bounds.row]; omega
  have hcol : b.bounds.col (b.bounds.minX.toInt + i) = i := by rw [Bounds.col]; omega
  rw [Buffer.pxWrite, withRow_bounds, if_pos (inBounds_of_lt hr hi), hrow, hcol]
  simp only [Buffer.withRow]
  rw [List.modify_eq_set_getElem?, List.getElem?_set_self (wf.2.1 ▸ hr)]
  exact congrArg (Buffer.mk b.bounds) (List.set_set ..)

theorem withRow_wf {b : Buffer} {cells : List Sample} (wf : b.WF) (r : Nat) (hlen : cells.length = b.bounds.width) :
    (b.withRow r cells).WF := by
  obtain ⟨ordered, hrows, hwidth⟩ := wf
  refine ⟨ordered, (List.length_set ..).trans hrows, fun row hrow => ?_⟩
  obtain hmem | rfl := List.mem_or_eq_of_mem_set hrow
  · exact hwidth row hmem
  · exact hlen

/-! ### The pseudocode's loops on one row (R86) -/

theorem foldl_intsFrom {α : Type} (f : α → Int → α) (a : α) (lo hi : Int) :
    (intsFrom lo hi).foldl f a = (List.range (hi - lo).toNat).foldl (fun a (n : Nat) => f a (lo + n)) a :=
  List.foldl_map

/-- The body of R86's j loop, the offset being `n + 1`. -/
def targetVisit (k : Sample) (x y : Int) (w : Buffer) (n : Nat) : Buffer :=
  if x + ((n + 1 : Nat) : Int) < w.bounds.maxX.toInt then
    match w.pxRead? (x + ((n + 1 : Nat) : Int)) y with
    | some t => w.pxWrite (x + ((n + 1 : Nat) : Int)) y (smearSample t k (n + 1))
    | none => w
  else w

theorem blurTargets_eq_foldl (k : Sample) (x y : Int) (w : Buffer) :
    blurTargets k x y w = (List.range 99).foldl (targetVisit k x y) w := rfl

/-- The body of R86's loop over kernel positions. -/
def kernelVisit (w : Buffer) (x y : Int) : Buffer :=
  match w.pxRead? x y with
  | some k => blurTargets k x y w
  | none => w

theorem motionBlurRaster_eq_rasterFold (src : Buffer) :
    motionBlurRaster src = rasterFold src.bounds kernelVisit (pointwiseRaster (fun p => p) src) := rfl

/-- `w` is `b` with `cells` as row `r`: how a buffer in R86's inner loops stands to a row in `blurRow`. -/
def HoldsRow (b : Buffer) (r : Nat) (w : Buffer) (cells : List Sample) : Prop :=
  cells.length = b.bounds.width ∧ w = b.withRow r cells

section
variable {b : Buffer} {r : Nat} (wf : b.WF) (hr : r < b.bounds.height)
include wf hr

theorem holdsRow_targetVisit {w : Buffer} {cells : List Sample} (h : HoldsRow b r w cells) (k : Sample) (i n : Nat) :
    HoldsRow b r (targetVisit k (b.bounds.minX.toInt + i) (b.bounds.minY.toInt + r) w n) (smearAt k i cells (n + 1)) := by
  obtain ⟨hlen, rfl⟩ := h
  refine ⟨(smearAt_length ..).trans hlen, ?_⟩
  have hx : b.bounds.minX.toInt + i + ((n + 1 : Nat) : Int) = b.bounds.minX.toInt + ((i + (n + 1) : Nat) : Int) := by
    omega
  rw [targetVisit, hx, pxRead?_withRow wf hr hlen, smearAt]
  cases ht : cells[i + (n + 1)]? with
  | none => exact ite_self _
  | some t =>
    obtain ⟨hi, -⟩ := List.getElem?_eq_some_iff.1 ht
    rw [hlen] at hi
    have hmax : b.bounds.minX.toInt + ((i + (n + 1) : Nat) : Int) < b.bounds.maxX.toInt :=
      (inBounds_of_lt hr hi).1.2
    exact (if_pos hmax).trans (pxWrite_withRow cells wf hr hi _)

theorem holdsRow_kernelVisit {w : Buffer} {cells : List Sample} (h : HoldsRow b r w cells) (i : Nat) :
    HoldsRow b r (kernelVisit w (b.bounds.minX.toInt + i) (b.bounds.minY.toInt + r)) (blurFrom cells i) := by
  have hread : w.pxRead? (b.bounds.minX.toInt + i) (b.bounds.minY.toInt + r) = cells[i]? :=
    h.2 ▸ pxRead?_withRow wf hr h.1 i
  rw [kernelVisit, hread, blurFrom]
  cases cells[i]? with
  | none => exact h
  | some k =>
    simp only [blurTargets_eq_foldl, blurOffsets, List.foldl_map]
    exact List.foldl_rel h fun n _ _ _ h => holdsRow_targetVisit wf hr h k i n

/-- R86's x loop blurs the row it runs along. -/
theorem holdsRow_blurRow {cells : List Sample} {w : Buffer} (h : HoldsRow b r w cells) :
    HoldsRow b r
      ((intsFrom b.bounds.minX.toInt b.bounds.maxX.toInt).foldl
        (fun w x => kernelVisit w x (b.bounds.minY.toInt + r)) w)
      (blurRow cells) := by
  have hrange : (b.bounds.maxX.toInt - b.bounds.minX.toInt).toNat = cells.length := h.1.symm
  rw [foldl_intsFrom, hrange]
  exact List.foldl_rel h fun i _ _ _ h => holdsRow_kernelVisit wf hr h i

end

/-! ### The pseudocode's loops on the table (R86, R88) -/

/-- `w` is `b` with `rows` as its table: how a buffer in R86's outer loop stands to a table blurred row by row. -/
def HoldsTable (b w : Buffer) (rows : List (List Sample)) : Prop :=
  w.WF ∧ w = { b with rows := rows }

theorem holdsTable_blurRow {b w : Buffer} {rows : List (List Sample)} (h : HoldsTable b w rows) {r : Nat}
    (hr : r < b.bounds.height) :
    HoldsTable b
      ((intsFrom b.bounds.minX.toInt b.bounds.maxX.toInt).foldl
        (fun w x => kernelVisit w x (b.bounds.minY.toInt + r)) w)
      (rows.modify r blurRow) := by
  obtain ⟨wf, rfl⟩ := h
  have hr' : r < rows.length := wf.2.1 ▸ hr
  have start : HoldsRow { b with rows := rows } r { b with rows := rows } rows[r] :=
    ⟨wf.2.2 _ (List.getElem_mem hr'), by rw [Buffer.withRow, List.set_getElem_self]⟩
  obtain ⟨hlen, hrow⟩ := holdsRow_blurRow wf hr start
  refine ⟨hrow ▸ withRow_wf wf r hlen, hrow.trans ?_⟩
  rw [List.modify_eq_set_getElem?, List.getElem?_eq_getElem hr']
  rfl

/-- The deep copy that the pseudocode begins with (R86). -/
theorem pointwiseRaster_self {src : Buffer} (wf : src.WF) : pointwiseRaster (fun p => p) src = src := by
  rw [← pointwiseIsTheRasterPseudocode _ src wf]
  simp only [Buffer.mapSamples, List.map_id']

theorem motionBlur_eq_motionBlurRaster {src : Buffer} (wf : src.WF) : src.motionBlur = motionBlurRaster src := by
  have hrange : (src.bounds.maxY.toInt - src.bounds.minY.toInt).toNat = src.rows.length := wf.2.1.symm
  have start : HoldsTable src src src.rows := ⟨wf, rfl⟩
  have loops : HoldsTable src (motionBlurRaster src)
      ((List.range src.rows.length).foldl (fun rows r => rows.modify r blurRow) src.rows) := by
    rw [motionBlurRaster_eq_rasterFold, pointwiseRaster_self wf, rasterFold, foldl_intsFrom, hrange]
    exact List.foldl_rel start fun r hr _ _ h => holdsTable_blurRow h (wf.2.1 ▸ List.mem_range.1 hr)
  rw [loops.2, foldl_modify_eq_map, Buffer.motionBlur]

/-- Settles O39: the tests are those of every two-slot command, and the blurred table is what R86's loops leave. -/
theorem mblurIsTheRasterPseudocode : Obligations.MblurIsTheRasterPseudocode := fun rd rs s =>
  ⟨commandWord_eq_scriptWord 0x14 rd rs, sourceThenDestination_of_produce (exec_mblur rd rs s), fun src hs wf hd =>
    ⟨_, _, exec_mblur_makes hs hd, onlySlotChanges_setSlot s rd _, slot_setSlot_same s rd _, motionBlur_wf wf,
      motionBlur_bounds src, motionBlur_eq_motionBlurRaster wf⟩⟩

end Sys2Proof.Machine
end

section
/-! PROOFS. What a slot made valid was made from, and that a command writes one slot only: COPY's two slots stay apart (R97, R99
to R101). -/

namespace Sys2Proof.Machine

/-! ### New bounds (R97) -/

/-- A command that writes a buffer to a free slot is ALLOC of that slot, or took the bounds from the slot it reads. -/
theorem Writes.alloc_or_source_bounds {s : State} {i : Instr} {n : SlotNum} {d : Buffer} (h : Writes s i n (some d))
    (hn : s.slot n = none) :
    i = .alloc n ∨ ∃ rs src, mustHold i = some rs ∧ mustBeFree i = some n ∧ s.slot rs = some src ∧
      d.bounds = src.bounds := by
  cases h with
  | alloc => exact .inl rfl
  | putpx hd => cases hd.symm.trans hn
  | made hm hs => exact .inr ⟨_, _, hm.mustHold_eq, hm.mustBeFree_eq, hs, hm.bounds_eq _⟩

/-- Where `execute` makes a free slot valid, the command in the word wrote that slot. -/
theorem writes_of_execute_makes_valid {v : Word} {s t : State} (h : execute v s = .next t) {n : SlotNum} {d : Buffer}
    (hs : s.slot n = none) (ht : t.slot n = some d) : ∃ i, decode v = .instr i ∧ Writes s i n (some d) := by
  obtain ⟨c, -, rfl⟩ | ⟨i, m, b, hv, hw, rfl⟩ | ⟨lo, hi, data, rfl⟩ := execute_next_cases h
  · cases hs.symm.trans ht
  · by_cases hnm : n = m
    · subst hnm
      obtain rfl := (slot_setSlot_same s n b).symm.trans ht
      exact ⟨i, hv, hw⟩
    · cases hs.symm.trans ((slot_setSlot_other s b hnm).symm.trans ht)
  · cases hs.symm.trans ht

/-- Settles O28: reset frees every slot, and of all other steps only a command's write makes a slot valid. -/
theorem onlyAllocMakesNewBounds : Obligations.OnlyAllocMakesNewBounds := by
  intro s t n d h hs ht
  obtain ⟨rest, -, rfl⟩ | ⟨v, rest, hv, -, hx⟩ | hq := step_next_cases h
  · cases (resetEvent_slot _ n).symm.trans ht
  · obtain ⟨i, hi, hw⟩ := writes_of_execute_makes_valid hx hs ht
    exact ⟨v, rest, i, hv, hi, hw.alloc_or_source_bounds hs⟩
  · cases hs.symm.trans ((hq.slots n).symm.trans ht)

/-! ### COPY (R99, R100) -/

theorem exec_copy (rd rs : SlotNum) (s : State) :
    exec (.copy rd rs) s = pointwise (.copy rd rs) rd rs (fun p => p) s :=
  rfl

/-- Settles O35: COPY is `Pointwise` with the identity. -/
theorem copyDuplicatesTheSource : Obligations.CopyDuplicatesTheSource := fun rd rs s =>
  ⟨commandWord_eq_scriptWord 0x10 rd rs, sourceThenDestination_of_produce (exec_copy rd rs s), fun _ hs wf hd =>
    stores_sampleWise_of_pointwise (rel := fun p q => q = p) (exec_copy rd rs s) (fun _ => rfl) hs wf hd⟩

theorem mapSamples_id (b : Buffer) : b.mapSamples (fun p => p) = b := by
  simp only [Buffer.mapSamples, List.map_id']

theorem exec_copy_makes {rd rs : SlotNum} {s : State} {src : Buffer} (hs : s.slot rs = some src)
    (hd : s.slot rd = none) : exec (.copy rd rs) s = .next (s.setSlot rd (some src)) := by
  rw [exec_copy, pointwise, produce_makes hs hd, mapSamples_id]

/-! ### Isolation (R10, R101) -/

/-- A command changes no slot but the one in the `RD` field of its word. -/
theorem exec_keeps_other_slots {i : Instr} {s t : State} (h : exec i s = .next t) {n : SlotNum}
    (hn : n ≠ rdOperand i) : t.slot n = s.slot n :=
  execute_keeps_other_slots ((execute_of_decode (decode_encode i) s).trans h)
    (by rwa [rdField_of_decode (decode_encode i)])

/-- PUTPX to a slot and FREE of it leave every other slot as it is. -/
theorem putpx_or_free_keeps_other_slots {m n : SlotNum} {s t : State}
    (h : exec (.putpx m) s = .next t ∨ exec (.free m) s = .next t) (hn : n ≠ m) : t.slot n = s.slot n :=
  h.elim (exec_keeps_other_slots · hn) (exec_keeps_other_slots · hn)

theorem slot_eq_of_slots_eq {s t : State} (h : t.slots = s.slots) (n : SlotNum) : t.slot n = s.slot n := by
  rw [State.slot, State.slot, h]

/-- Settles O52: the source was valid and the destination free, so they are two slots, and each command writes one only. -/
theorem copyIsIsolatedFromItsSource : Obligations.CopyIsIsolatedFromItsSource := by
  intro rd rs s src hs hd
  have hne : rs ≠ rd := by rintro rfl; cases hs.symm.trans hd
  have hsrc : (s.setSlot rd (some src)).slot rs = some src := (slot_setSlot_other s _ hne).trans hs
  have hdst : (s.setSlot rd (some src)).slot rd = some src := slot_setSlot_same s rd _
  refine ⟨_, exec_copy_makes hs hd, hsrc, hdst, fun w u hw => ⟨fun h => ?_, fun h => ?_⟩⟩
  · rw [putpx_or_free_keeps_other_slots h hne, slot_eq_of_slots_eq hw, hsrc]
  · rw [putpx_or_free_keeps_other_slots h hne.symm, slot_eq_of_slots_eq hw, hdst]

end Sys2Proof.Machine
end

section
/-! PROOFS. ALLOC and FREE: which test a state fails, and the slot that is made or freed (R96, R98). -/

namespace Sys2Proof.Machine

/-! ### ALLOC (R96) -/

theorem exec_alloc_of_occupied {rd : SlotNum} {s : State} {b : Buffer} (hd : s.slot rd = some b) :
    exec (.alloc rd) s = raiseIn (.alloc rd) .slotOccupied s := by
  simp only [exec, execAlloc, hd]

theorem exec_alloc_of_reversed {rd : SlotNum} {s : State} (hd : s.slot rd = none)
    (h : s.boundsOperand.maxX.toInt < s.boundsOperand.minX.toInt ∨
      s.boundsOperand.maxY.toInt < s.boundsOperand.minY.toInt) :
    exec (.alloc rd) s = raiseIn (.alloc rd) .badBounds s := by
  simp only [exec, execAlloc, hd, if_pos h]

/-- With ordered bounds only the capacity test is left. -/
theorem exec_alloc_of_ordered {rd : SlotNum} {s : State} (hd : s.slot rd = none) (ho : s.boundsOperand.Ordered) :
    exec (.alloc rd) s =
      if (s.boundsOperand.maxX.toInt - s.boundsOperand.minX.toInt) *
          (s.boundsOperand.maxY.toInt - s.boundsOperand.minY.toInt) > (s.capPixels : Int) then
        raiseIn (.alloc rd) .capacity s
      else .next (s.setSlot rd (some (newBuffer s.boundsOperand))) := by
  obtain ⟨hx, hy⟩ := ho
  have hno : ¬ (s.boundsOperand.maxX.toInt < s.boundsOperand.minX.toInt ∨
      s.boundsOperand.maxY.toInt < s.boundsOperand.minY.toInt) := not_or.2 ⟨not_lt.2 hx, not_lt.2 hy⟩
  simp only [exec, execAlloc, hd, if_neg hno]

/-- Settles O30: the three tests case by case; the buffer made is `NewBuffer` of the operand's bounds, which are ordered. -/
theorem allocMakesAZeroFilledBuffer : Obligations.AllocMakesAZeroFilledBuffer := by
  rintro rd s _ _ _ _ rfl rfl rfl rfl
  refine ⟨commandWord_eq_scriptWord 0x01 rd 0, fun b hd => ?_, fun hd h => ?_, fun hd hx hy hc => ?_,
    fun hd hx hy hc => ?_⟩
  · exact raises_of_exec (exec_alloc_of_occupied hd)
  · exact raises_of_exec (exec_alloc_of_reversed hd h)
  · exact raises_of_exec ((exec_alloc_of_ordered hd ⟨hx, hy⟩).trans (if_pos hc))
  · exact ⟨_, _, (exec_alloc_of_ordered hd ⟨hx, hy⟩).trans (if_neg hc.not_gt), onlySlotChanges_setSlot s rd _,
      slot_setSlot_same s rd _, newBuffer_wf ⟨hx, hy⟩, rfl, rfl, rfl, rfl,
      fun x y hx₁ hx₂ hy₁ hy₂ => pxRead?_newBuffer ⟨⟨hx₁, hx₂⟩, hy₁, hy₂⟩⟩

/-! ### FREE (R98) -/

theorem exec_free_of_free {rd : SlotNum} {s : State} (hd : s.slot rd = none) :
    exec (.free rd) s = raiseIn (.free rd) .slotInvalid s := by
  simp only [exec, execFree, hd]

theorem exec_free_of_valid {rd : SlotNum} {s : State} {b : Buffer} (hd : s.slot rd = some b) :
    exec (.free rd) s = .next (s.setSlot rd none) := by
  simp only [exec, execFree, hd]

/-- The bit of a slot in a `VALID` read (R23). -/
theorem regRead_valid_getLsbD (s : State) (n : SlotNum) : (regRead .valid s).getLsbD n.val = (s.slot n).isSome := by
  rw [regRead, validWord_getLsbD s (n.isLt.trans (by decide)), dif_pos n.isLt]

/-- Settles O31: the one test, then the slot set to `FREE`, whose `VALID` bit says so. -/
theorem freeMakesTheSlotFree : Obligations.FreeMakesTheSlotFree := fun rd s =>
  ⟨commandWord_eq_scriptWord 0x02 rd 0, fun hd => raises_of_exec (exec_free_of_free hd), fun _ hd =>
    have freed := slot_setSlot_same s rd none
    ⟨_, exec_free_of_valid hd, onlySlotChanges_setSlot s rd none, freed, by
      rw [regRead_valid_getLsbD, freed, Option.isSome_none]⟩⟩

end Sys2Proof.Machine
end

section
/-! PROOFS. GETB, GETPX and PUTPX: what they load and store, and their frames (R102 to R104, R113). -/

namespace Sys2Proof.Machine

/-! ### GETB (R102) -/

theorem exec_getb_of_free {rs : SlotNum} {s : State} (hs : s.slot rs = none) :
    exec (.getb rs) s = raiseIn (.getb rs) .slotInvalid s := by
  simp only [exec, execGetb, hs]

theorem exec_getb_of_valid {rs : SlotNum} {s : State} {b : Buffer} (hs : s.slot rs = some b) :
    exec (.getb rs) s = .next { s with
      bmin := pairWord b.bounds.minY b.bounds.minX
      bmax := pairWord b.bounds.maxY b.bounds.maxX } := by
  simp only [exec, execGetb, hs]

/-- Settles O32: the halves of a pair register are the two bounds it was put together from. -/
theorem getbReadsTheBounds : Obligations.GetbReadsTheBounds := fun rs _ =>
  ⟨commandWord_eq_scriptWord 0x03 0 rs, fun hs => raises_of_exec (exec_getb_of_free hs), fun _ hs =>
    ⟨_, exec_getb_of_valid hs, lowHalf_pairWord _ _, highHalf_pairWord _ _, lowHalf_pairWord _ _,
      highHalf_pairWord _ _, fun _ => rfl, rfl, rfl, rfl, ⟨rfl, rfl, rfl⟩, rfl, rfl, rfl⟩⟩

/-! ### GETPX (R103) -/

theorem exec_getpx_of_free {rs : SlotNum} {s : State} (hs : s.slot rs = none) :
    exec (.getpx rs) s = raiseIn (.getpx rs) .slotInvalid s := by
  simp only [exec, execGetpx, hs]

theorem exec_getpx_of_outside {rs : SlotNum} {s : State} {b : Buffer} (hs : s.slot rs = some b)
    (hout : ¬ b.bounds.InBounds s.posX s.posY) : exec (.getpx rs) s = raiseIn (.getpx rs) .oob s := by
  simp only [exec, execGetpx, hs, if_neg hout]

/-- An empty buffer has no coordinate within its bounds (R11). -/
theorem not_inBounds_of_pixels_eq_zero {q : Bounds} (h : q.pixels = 0) (x y : Int) : ¬ q.InBounds x y := fun hin =>
  absurd (linearIndex_lt_pixels hin) (h ▸ Nat.not_lt_zero _)

/-- Settles O33: the two tests, the second also on empty buffers; a well-formed buffer has its sample within the bounds, and
the bytes of `PXDATA` are its channels. -/
theorem getpxReadsOneSample : Obligations.GetpxReadsOneSample := by
  rintro rs s _ _ rfl rfl
  refine ⟨commandWord_eq_scriptWord 0x04 0 rs, fun hs => ?_, fun b hs hout => ?_, fun b hs hempty => ?_,
    fun b hs wf hin => ?_⟩
  · exact raises_of_exec (exec_getpx_of_free hs)
  · exact raises_of_exec (exec_getpx_of_outside hs hout)
  · exact raises_of_exec (exec_getpx_of_outside hs (not_inBounds_of_pixels_eq_zero hempty _ _))
  · obtain ⟨p, hp⟩ := exists_pxRead? wf hin
    have channels := sampleOfWord_wordOfSample p
    exact ⟨_, p, execGetpx_of_read hs rfl rfl hp, hp, congrArg Sample.r channels, congrArg Sample.g channels,
      congrArg Sample.b channels, congrArg Sample.a channels, fun _ => rfl, rfl, rfl, rfl, rfl, ⟨rfl, rfl, rfl⟩,
      rfl, rfl, rfl⟩

/-! ### PUTPX (R104) -/

theorem exec_putpx_of_free {rd : SlotNum} {s : State} (hd : s.slot rd = none) :
    exec (.putpx rd) s = raiseIn (.putpx rd) .slotInvalid s := by
  simp only [exec, execPutpx, hd]

theorem exec_putpx_of_outside {rd : SlotNum} {s : State} {b : Buffer} (hd : s.slot rd = some b)
    (hout : ¬ b.bounds.InBounds s.posX s.posY) : exec (.putpx rd) s = raiseIn (.putpx rd) .oob s := by
  simp only [exec, execPutpx, hd, if_neg hout]

/-- Settles O34: the two tests, then `PxWrite` of `PXDATA`'s sample, read back there and nowhere else. -/
theorem putpxReplacesOneSample : Obligations.PutpxReplacesOneSample := by
  rintro rd s _ _ rfl rfl
  refine ⟨commandWord_eq_scriptWord 0x05 rd 0, fun hd => ?_, fun b hd hout => ?_, fun b hd wf hin => ?_⟩
  · exact raises_of_exec (exec_putpx_of_free hd)
  · exact raises_of_exec (exec_putpx_of_outside hd hout)
  · obtain ⟨old, hold⟩ := exists_pxRead? wf hin
    exact ⟨_, _, execPutpx_of_read hd rfl rfl hold, onlySlotChanges_setSlot s rd _, slot_setSlot_same s rd _,
      pxWrite_wf wf _ _ _, pxWrite_bounds b _ _ _, pxRead?_pxWrite_same wf hin _,
      fun _ _ => pxRead?_pxWrite_other _⟩

/-! ### Frames (R113) -/

/-- GETB and GETPX write no slot: their words have no `RD` field (R47). -/
theorem Writes.not_load {s : State} {i : Instr} {n rs : SlotNum} {b : Option Buffer} (h : Writes s i n b) :
    ¬ (i = .getb rs ∨ i = .getpx rs) := by
  cases h with
  | made hm => cases hm <;> nofun
  | _ => nofun

/-- Settles O54: each of the two takes one of its faults, which touches no operand register, or loads its own registers. -/
theorem registerLoadingCommandsFrame : Obligations.RegisterLoadingCommandsFrame := by
  intro rs i s t hi h
  simp only [List.mem_cons, List.not_mem_nil, or_false] at hi
  have e := exec_effect i s
  rw [h] at e
  cases e with
  | raises hc =>
    exact ⟨fun _ => rfl, fun _ _ _ => rfl, ⟨rfl, rfl, rfl⟩, rfl, rfl, fun _ => rfl, fun _ => ⟨rfl, rfl⟩,
      .inr ⟨rfl, ⟨_, hc, rfl⟩, rfl, rfl, rfl, rfl, rfl, rfl⟩⟩
  | writes hw => exact absurd hi hw.not_load
  | loadsBounds hb =>
    exact ⟨fun _ => rfl, fun _ _ _ => rfl, ⟨rfl, rfl, rfl⟩, rfl, rfl, fun _ => rfl,
      fun hp => (nomatch hb.symm.trans hp), .inl ⟨rfl, rfl, rfl⟩⟩
  | loadsSample hp =>
    exact ⟨fun _ => rfl, fun _ _ _ => rfl, ⟨rfl, rfl, rfl⟩, rfl, rfl, fun hb => (nomatch hp.symm.trans hb),
      fun _ => ⟨rfl, rfl⟩, .inl ⟨rfl, rfl, rfl⟩⟩

/-- What PUTPX writes is one sample of its slot, at the coordinate in `PXPOS`. -/
theorem Writes.putpx_eq {s : State} {rd n : SlotNum} {b : Option Buffer} (h : Writes s (.putpx rd) n b) :
    n = rd ∧ ∃ old, s.slot rd = some old ∧ b = some (old.pxWrite s.posX s.posY (sampleOfWord s.pxdata)) := by
  cases h with
  | putpx hd => exact ⟨rfl, _, hd, rfl⟩
  | made hm => cases hm

/-- Settles O55: PUTPX takes one of its faults, which touches no slot, or writes the one sample of slot `rd`. -/
theorem putpxFrame : Obligations.PutpxFrame := by
  intro rd s t h
  have e := exec_effect (.putpx rd) s
  rw [h] at e
  cases e with
  | raises hc =>
    exact ⟨⟨rfl, rfl, rfl, rfl, rfl⟩, ⟨rfl, rfl, rfl⟩, fun _ _ => rfl, rfl, fun _ _ _ _ => rfl,
      .inr ⟨rfl, ⟨_, hc, rfl⟩, rfl, fun _ => rfl⟩⟩
  | writes hw =>
    obtain ⟨rfl, old, hd, rfl⟩ := hw.putpx_eq
    obtain ⟨hslots, hregs, hstatus, hhost⟩ := onlySlotChanges_setSlot s _
      (some (old.pxWrite s.posX s.posY (sampleOfWord s.pxdata)))
    refine ⟨hregs, hhost, hslots, ?_, fun n x y hne => sample?_setSlot_pxWrite_other _ hd hne, .inl hstatus⟩
    rw [slot_setSlot_same, hd, Option.map_some, Option.map_some, pxWrite_bounds]
  | loadsBounds hi => cases hi
  | loadsSample hi => cases hi

end Sys2Proof.Machine
end

section
/-! PROOFS. The faults: what a fault records, which of several conditions is raised, the halt and the return (R110 to R118). -/

namespace Sys2Proof.Machine

/-! ### Fault entry (R112, R113) -/

/-- A command that answers takes one of its faults, whose condition held, or leaves `STATUS` and `FINFO` alone. -/
theorem exec_raises_or_keeps_status {i : Instr} {s t : State} (h : exec i s = .next t) :
    (∃ c ∈ causesOf i, FaultCondition i c s ∧ t = raiseFault (encode i) c s) ∨ StatusKept s t := by
  have e := exec_effect i s
  rw [h] at e
  cases e with
  | raises hc hf => exact .inl ⟨_, hc, hf, rfl⟩
  | _ => exact .inr ⟨rfl, rfl, rfl⟩

/-- Settles O21: it answers, since every slot is well formed, and the fault it could answer with has no condition that holds. -/
theorem commandWithoutFaultConditionCompletes : Obligations.CommandWithoutFaultConditionCompletes := by
  intro i s inv hno
  obtain ⟨t, h⟩ := exec_answers inv.1 i
  obtain ⟨c, hc, hf, -⟩ | kept := exec_raises_or_keeps_status h
  · exact absurd hf (hno c hc)
  · exact ⟨t, h, kept⟩

/-- No fault condition reads the host's side. -/
theorem faultCondition_pending (i : Instr) (c : Cause) (s : State) (rest : List HostAction) :
    FaultCondition i c { s with pending := rest } ↔ FaultCondition i c s := by
  cases c <;> rfl

/-- Settles O19: a word that is no command is recorded with `ILLEGAL`; a command sets `FAULT` only by one of its faults, which
records its encoding, the word as written. -/
theorem faultingCommandChangesOnlyTheRecord : Obligations.FaultingCommandChangesOnlyTheRecord := by
  intro s t v rest hv hs h ht
  rw [step_write (r := .cmd) hv, regWrite_cmd_ready (s := { s with pending := rest }) hs] at h
  cases hd : decode v with
  | illegal why =>
    rw [execute_of_illegal hd] at h
    cases h
    exact ⟨rfl, nofun, fun _ => rfl⟩
  | instr i =>
    rw [execute_of_decode hd] at h
    obtain ⟨c, hc, hf, rfl⟩ | ⟨kept, -, -⟩ := exec_raises_or_keeps_status h
    · refine ⟨by rw [encode_of_decode hd]; rfl, ?_, fun hne => absurd rfl (hne i)⟩
      rintro _ ⟨⟩
      exact ⟨c, hc, rfl, (faultCondition_pending i c s rest).1 hf⟩
    · exact absurd ((kept.trans hs).symm.trans ht) Bool.false_ne_true

/-! ### The lowest cause (R115 to R117) -/

theorem exists_buffer_of_not_invalid {i : Instr} {s : State} {n : SlotNum} (h : ¬ FaultCondition i .slotInvalid s)
    (hold : mustHold i = some n) : ∃ b, s.slot n = some b :=
  Option.ne_none_iff_exists'.1 fun hs => h ⟨n, hold, hs⟩

theorem slot_free_of_not_occupied {i : Instr} {s : State} {n : SlotNum} (h : ¬ FaultCondition i .slotOccupied s)
    (free : mustBeFree i = some n) : s.slot n = none :=
  Option.eq_none_iff_forall_ne_some.2 fun b hs => h ⟨n, b, free, hs⟩

/-- R115: the test of the slot that must be valid comes first in every command that has it. -/
theorem exec_of_invalid {i : Instr} {s : State} {n : SlotNum} (hold : mustHold i = some n) (hs : s.slot n = none) :
    exec i s = raiseIn i .slotInvalid s := by
  cases i <;> cases hold
  case free => exact exec_free_of_free hs
  case getb => exact exec_getb_of_free hs
  case getpx => exact exec_getpx_of_free hs
  case putpx => exact exec_putpx_of_free hs
  case contrast => exact execContrast_of_source_free hs
  case copy | gray | invert | mblur => exact produce_of_source_free hs

/-- R116: the test of the slot that must be `FREE` comes next. -/
theorem exec_of_occupied {i : Instr} {s : State} {n : SlotNum} {b : Buffer}
    (valid : ¬ FaultCondition i .slotInvalid s) (free : mustBeFree i = some n) (hs : s.slot n = some b) :
    exec i s = raiseIn i .slotOccupied s := by
  have source {m : SlotNum} := exists_buffer_of_not_invalid (n := m) valid
  cases i <;> cases free
  case alloc => exact exec_alloc_of_occupied hs
  case contrast =>
    obtain ⟨src, hsrc⟩ := source rfl
    exact execContrast_of_occupied hsrc hs
  case copy | gray | invert | mblur =>
    obtain ⟨src, hsrc⟩ := source rfl
    exact produce_of_occupied hsrc hs

theorem exec_alloc_of_over_capacity {rd : SlotNum} {s : State} (free : ¬ FaultCondition (.alloc rd) .slotOccupied s)
    (ordered : ¬ FaultCondition (.alloc rd) .badBounds s) (h : FaultCondition (.alloc rd) .capacity s) :
    exec (.alloc rd) s = raiseIn (.alloc rd) .capacity s := by
  obtain ⟨hx, hy⟩ := not_or.1 ordered
  exact (exec_alloc_of_ordered (slot_free_of_not_occupied free rfl) ⟨not_lt.1 hx, not_lt.1 hy⟩).trans (if_pos h)

theorem exec_contrast_of_badAmount {rd rs : SlotNum} {s : State}
    (valid : ¬ FaultCondition (.contrast rd rs) .slotInvalid s)
    (free : ¬ FaultCondition (.contrast rd rs) .slotOccupied s) (h : s.amount = 0) :
    exec (.contrast rd rs) s = raiseIn (.contrast rd rs) .badAmount s :=
  let ⟨_, hsrc⟩ := exists_buffer_of_not_invalid valid rfl
  execContrast_of_zero hsrc (slot_free_of_not_occupied free rfl) h

/-- GETPX and PUTPX are the commands that test `PXPOS` (R112). -/
theorem exec_of_oob {i : Instr} {s : State} (hc : .oob ∈ causesOf i) (h : FaultCondition i .oob s) :
    exec i s = raiseIn i .oob s := by
  obtain ⟨n, b, hold, hs, hout⟩ := h
  cases i with
  | getpx rs =>
    cases hold
    exact exec_getpx_of_outside hs hout
  | putpx rd =>
    cases hold
    exact exec_putpx_of_outside hs hout
  | _ => simp [causesOf] at hc

/-- R117: the tests of a command stand in the order of their codes. -/
theorem exec_of_lowest_cause {i : Instr} {s : State} {c : Cause} (hc : c ∈ causesOf i) (h : FaultCondition i c s)
    (lower : ∀ c' ∈ causesOf i, c'.code < c.code → ¬ FaultCondition i c' s) : exec i s = raiseIn i c s := by
  cases c with
  | illegal => cases h
  | slotInvalid =>
    obtain ⟨n, hold, hs⟩ := h
    exact exec_of_invalid hold hs
  | slotOccupied =>
    obtain ⟨n, b, free, hs⟩ := h
    refine exec_of_occupied ?_ free hs
    rintro ⟨m, hold, hm⟩
    exact lower .slotInvalid (slotInvalid_mem_causesOf hold) (by decide) ⟨m, hold, hm⟩
  | badBounds =>
    cases i with
    | alloc rd => exact exec_alloc_of_reversed (slot_free_of_not_occupied (lower _ (.head _) (by decide)) rfl) h
    | _ => simp [causesOf] at hc
  | capacity =>
    cases i with
    | alloc rd =>
      exact exec_alloc_of_over_capacity (lower _ (.head _) (by decide)) (lower _ (.tail _ (.head _)) (by decide)) h
    | _ => simp [causesOf] at hc
  | oob => exact exec_of_oob hc h
  | badAmount =>
    cases i with
    | contrast rd rs =>
      exact exec_contrast_of_badAmount (lower _ (.head _) (by decide)) (lower _ (.tail _ (.head _)) (by decide)) h
    | _ => simp [causesOf] at hc

/-- Settles O20: the tests stand in the order of their codes, so the lowest is the one that is taken. -/
theorem lowestCauseCodeIsRaised : Obligations.LowestCauseCodeIsRaised := fun _ _ _ hc h lower =>
  raises_of_exec (exec_of_lowest_cause hc h lower)

/-- Settles O29: each of the five needs slot `n` both valid and free, and tests the first before the second. -/
theorem noCommandRunsInPlace : Obligations.NoCommandRunsInPlace := by
  intro n i s hi
  obtain ⟨hold, free⟩ : mustHold i = some n ∧ mustBeFree i = some n := by
    simp only [List.mem_cons, List.not_mem_nil, or_false] at hi
    obtain rfl | rfl | rfl | rfl | rfl := hi <;> exact ⟨rfl, rfl⟩
  refine ⟨fun hs => raises_of_exec (exec_of_invalid hold hs), fun b hs => ?_⟩
  refine raises_of_exec (exec_of_occupied ?_ free hs)
  rintro ⟨m, hm, hnone⟩
  obtain rfl := Option.some.inj (hold.symm.trans hm)
  cases hs.symm.trans hnone

/-! ### The halt and the return (R114, R118) -/

/-- Settles O25: of the three kinds of step, reset is excluded and a command runs only with `FAULT = 0`. -/
theorem haltedEngineKeepsEverySlot : Obligations.HaltedEngineKeepsEverySlot := by
  intro s t a rest hf hp ha h
  obtain ⟨rest', hreset, -⟩ | ⟨v, rest', -, hrun, -⟩ | hq := step_next_cases h
  · exact absurd (List.cons.inj (hp.symm.trans hreset)).1 ha
  · exact absurd (hrun.symm.trans hf) Bool.false_ne_true
  · exact hq.slots

/-- Settles O10: the `CMD` write is the dropped one of its two cases; no other location's read or write looks at `FAULT`. -/
theorem commandsAreDroppedWhileFaulted : Obligations.CommandsAreDroppedWhileFaulted := by
  intro s rest v hf
  obtain ⟨cmd, status, finfo, amount, bmin, bmax, pxpos, pxdata, valid⟩ := registerWritesHaveTheirEffect
  exact ⟨fun hv => (cmd s v rest hv).1 hf, fun r => readAnswers_regRead r s rest, status s v rest, finfo s v rest,
    amount s v rest, bmin s v rest, bmax s v rest, pxpos s v rest, pxdata s v rest, valid s v rest⟩

theorem regWrite_status_clear {v : Word} (h : v.getLsbD 0 = true) (s : State) :
    regWrite .status v s = .next (clearFault s) := by
  simp only [regWrite, if_pos h]

/-- R118: where no fault is recorded the record is zero already. -/
theorem clearFault_of_no_fault {s : State} (ok : s.FaultRecordOk) (hf : s.fault = false) : clearFault s = s := by
  obtain ⟨hc, hi⟩ := ok.1 hf
  rw [clearFault, ← hf, ← hc, ← hi]

/-- Settles O11: the write is the return from the fault, which leaves a zero record as it is. -/
theorem statusWriteReturnsFromFault : Obligations.StatusWriteReturnsFromFault := by
  intro s v rest hp hv
  rw [step_write (r := .status) hp, regWrite_status_clear hv]
  exact ⟨rfl, fun ok hf => by rw [clearFault_of_no_fault (s := { s with pending := rest }) ok hf]⟩

end Sys2Proof.Machine
end

section
/-! PROOFS. Reset as an event, the block after it, and a command abandoned by it (R27, R130 to R132). -/

namespace Sys2Proof.Machine

/-! ### The reset event (R27, R130) -/

@[simp] theorem resetEvent_amount (s : State) : (resetEvent s).amount = 0 := rfl
@[simp] theorem resetEvent_bmin (s : State) : (resetEvent s).bmin = 0 := rfl
@[simp] theorem resetEvent_bmax (s : State) : (resetEvent s).bmax = 0 := rfl
@[simp] theorem resetEvent_pxpos (s : State) : (resetEvent s).pxpos = 0 := rfl
@[simp] theorem resetEvent_pxdata (s : State) : (resetEvent s).pxdata = 0 := rfl

/-- Settles O12: the step is the reset event, whose fields the laws of `resetEvent` give. -/
theorem resetEventGivesTheResetState : Obligations.ResetEventGivesTheResetState := by
  intro s rest hp
  exact ⟨_, step_reset hp, by simp⟩

/-! ### After reset, and with nothing asked (R132) -/

/-- Settles O15: the state after reset meets the invariant, whatever the host asks of it, so only an ill-formed access could
stop the machine. -/
theorem blockIsReadyAfterResetAndIdleUnasked : Obligations.BlockIsReadyAfterResetAndIdleUnasked := by
  refine ⟨fun a rest wellFormed => ?_, fun s => step_idle⟩
  have inv : ({ State.reset with pending := a :: rest } : State).Inv := resetMeetsTheInvariant
  obtain answers | ⟨a', rest', r, hp, illFormed, -⟩ := onlyUndefinedAccessesStopTheMachine _ inv
  · exact answers
  · obtain ⟨rfl, -⟩ := List.cons.inj hp
    exact absurd (illFormed.symm.trans wellFormed) Bool.false_ne_true

/-! ### A command abandoned by reset (R131) -/

theorem execute_keeps_hostSide {v : Word} {s t : State} (h : execute v s = .next t) : HostSideKept s t := by
  obtain ⟨c, -, rfl⟩ | ⟨i, n, b, -, -, rfl⟩ | ⟨lo, hi, data, rfl⟩ := execute_next_cases h <;> exact ⟨rfl, rfl, rfl⟩

theorem regWrite_cmd_keeps_hostSide {v : Word} {s t : State} (h : regWrite .cmd v s = .next t) : HostSideKept s t := by
  cases hf : s.fault with
  | true =>
    rw [regWrite_cmd_faulted hf] at h
    cases h
    exact ⟨rfl, rfl, rfl⟩
  | false =>
    rw [regWrite_cmd_ready hf] at h
    exact execute_keeps_hostSide h

/-- What reset leaves depends on the parameter and the host's side only. -/
theorem step_reset_eq_of_hostSideKept {s t : State} {rest : List HostAction} (kept : HostSideKept s t)
    (h : s.pending = .reset :: rest) : step t = step s := by
  obtain ⟨hcap, hpending, hanswers⟩ := kept
  rw [step_reset h, step_reset (hpending.trans h)]
  simp only [resetEvent, hcap, hanswers]

/-- Settles O13: the `CMD` write answers, since every slot is well formed, and keeps all that reset does not overwrite. -/
theorem resetHidesTheCommandBeforeIt : Obligations.ResetHidesTheCommandBeforeIt := by
  intro s v rest inv
  obtain ⟨t, ht⟩ := regWrite_answers (s := { s with pending := .reset :: rest }) inv.1 .cmd v
  have command : step { s with pending := .write 32 0x00 v :: .reset :: rest } = .next t :=
    (step_write (r := .cmd) rfl).trans ht
  have reset : step { s with pending := .reset :: rest } = .next (resetEvent { s with pending := rest }) :=
    step_reset rfl
  have resetAfter : step t = .next (resetEvent { s with pending := rest }) :=
    (step_reset_eq_of_hostSideKept (regWrite_cmd_keeps_hostSide ht) rfl).trans reset
  exact ⟨_, (run_succ_of_step command 1).trans (run_succ_of_step resetAfter 0), run_succ_of_step reset 0⟩

end Sys2Proof.Machine
end
